-- ==== Sys2Proof/Word.lean ====
section
/-! DEFINITION. The word types of the engine (00_scope.md rules R6, R8, R9; 30_encoding.md rule R70). -/

namespace Sys2Proof

/-- One byte of a message or of the state (R12). -/
abbrev Byte := BitVec 8

/-- One 64-bit lane of the permutation state (R8, R16). -/
abbrev Lane := BitVec 64

/-- The lane file `A[0..24]` (R9, R21): 25 lanes, `A[x + 5*y]` at column `x` and row `y`. -/
abbrev Lanes := Vector Lane 25

/-- The command word `cmd[31:0]` (R70). -/
abbrev CmdWord := BitVec 32

/-- The data operand `cmd_data[63:0]` (R70, R74). -/
abbrev DataWord := BitVec 64

/-- What the host presents on the command port: one 32-bit word with its 64-bit data operand (R70, R79). -/
structure Command where
  cmd  : CmdWord
  data : DataWord
  deriving DecidableEq, Repr

end Sys2Proof
end

