-- ==== Sys2Proof/Config.lean ====
section
/-! DEFINITION. What is fixed for one build of the engine: the fixed parameters (00_scope.md rule R6) and the two
open parameters (R7). -/

namespace Sys2Proof.Config

/-- `W`, the lane width in bits (R6). -/
abbrev laneWidth : Nat := 64
/-- `NLANES`, the lane count (R6). -/
abbrev nLanes : Nat := 25
/-- The state width in bytes, `B / 8` (R6). -/
abbrev stateBytes : Nat := 200
/-- `RATE` in bytes (R6). -/
abbrev rate : Nat := 136
/-- The rate in lanes (R6). -/
abbrev rateLanes : Nat := 17
/-- `CAP`, the capacity in bytes (R6). -/
abbrev capacity : Nat := 64
/-- `NROUNDS` (R6). -/
abbrev nRounds : Nat := 24
/-- `DIGEST`, the output length in bytes (R6). -/
abbrev digestLength : Nat := 32
/-- `DSBYTE`, the first padding byte (R6). -/
abbrev dsByte : Byte := 0x01
/-- `LASTBYTE`, the last padding bit as a byte at `RATE-1` (R6). -/
abbrev lastByte : Byte := 0x80

/-- The two open parameters of a build (R7). Both are held in the machine's state, where no step changes them, so that
a statement about every state is a statement about every build. -/
structure Params where
  /-- `LANE_ACCESS`: whether LOAD_LANE and READ_LANE exist (R7, R162). -/
  laneAccess  : Bool
  /-- `ROUND_CYCLES`, at least 1: no rule depends on it (R7, R210). -/
  roundCycles : Nat
  deriving DecidableEq, Repr

/-- The range R7 gives the parameters: `ROUND_CYCLES ≥ 1`; both values of `LANE_ACCESS` are builds. -/
def Params.wf (p : Params) : Bool := decide (1 ≤ p.roundCycles)

/-- DESIGN CHOICE (log entry 1): the build whose power-on state `State.reset` is. Nothing in the spec chooses
`LANE_ACCESS`; with it set, all seven commands of the opcode table run. -/
def Params.reference : Params := { laneAccess := true, roundCycles := 1 }

end Sys2Proof.Config
end

