-- ==== Sys2Proof/Syntax.lean ====
section
/-! DEFINITION. The seven commands of the engine, one constructor per row of the opcode table (30_encoding.md rule R75).
A field is the command's own: the 5-bit ARG where ARG means something (R73) and DATA where it is read (R74). -/

namespace Sys2Proof

/-- A command of the opcode map (R75). -/
inductive Instr where
  /-- `INIT` (R135). -/
  | init
  /-- `ABSORB n, data` (R136): `n` is ARG, the number of message bytes in DATA. -/
  | absorb (n : BitVec 5) (data : DataWord)
  /-- `FINAL` (R137). -/
  | final
  /-- `SQUEEZE` (R138). -/
  | squeeze
  /-- `PERMUTE` (R110). -/
  | permute
  /-- `LOAD_LANE i, data` (R160): `i` is ARG, the lane index. -/
  | loadLane (i : BitVec 5) (data : DataWord)
  /-- `READ_LANE i` (R161). -/
  | readLane (i : BitVec 5)
  deriving DecidableEq, Repr

end Sys2Proof
end

