-- ==== Sys2Proof/WellFormed.lean ====
section
/-! DEFINITION. Which instruction terms are commands: the legal range of ARG for each opcode (30_encoding.md rule R73). -/

namespace Sys2Proof

/-- ABSORB: `1 ≤ n ≤ 8` (R73). -/
def byteCountWf (n : BitVec 5) : Bool := decide (1 ≤ n.toNat ∧ n.toNat ≤ 8)

/-- LOAD_LANE and READ_LANE: `0 ≤ i ≤ 24` (R73). -/
def laneIndexWf (i : BitVec 5) : Bool := decide (i.toNat ≤ 24)

/-- A command's ARG is in its opcode's range (R73). -/
def Instr.wf : Instr → Bool
  | .init         => true
  | .absorb n _   => byteCountWf n
  | .final        => true
  | .squeeze      => true
  | .permute      => true
  | .loadLane i _ => laneIndexWf i
  | .readLane i   => laneIndexWf i

end Sys2Proof
end

