-- ==== Sys2Proof/Decode.lean ====
section
/-! DEFINITION. The command encoding (30_encoding.md): the fields of a command word (R70–R73), the decoder with the
first two checks of R76, the opcode map as rows of match and mask (R75), and the encoder (R75, R80). -/

namespace Sys2Proof

/-- OPC, `cmd[31:28]` (R71). -/
def opcField (w : CmdWord) : BitVec 4 := w.extractLsb' 28 4

/-- RSV, `cmd[27:5]` (R72). -/
def rsvField (w : CmdWord) : BitVec 23 := w.extractLsb' 5 23

/-- ARG, `cmd[4:0]` (R73). -/
def argField (w : CmdWord) : BitVec 5 := w.extractLsb' 0 5

/-- Why a command word selects no command: the first check of R76 that it fails. -/
inductive DecodeError where
  /-- OPC is `0x0` or `0x8`–`0xF`, or `0x6`/`0x7` with `LANE_ACCESS = 0` (R77). -/
  | illegalOpcode
  /-- RSV is not 0, or ARG is outside the opcode's range (R77). -/
  | illegalField
  deriving DecidableEq, Repr

/-- The command an OPC selects, given the ARG and DATA of the word; `none` for an illegal opcode (R75, R162). -/
def selectOpcode (laneAccess : Bool) (opc : BitVec 4) (arg : BitVec 5) (data : DataWord) : Option Instr :=
  match opc.toNat with
  | 1 => some .init
  | 2 => some (.absorb arg data)
  | 3 => some .final
  | 4 => some .squeeze
  | 5 => some .permute
  | 6 => if laneAccess then some (.loadLane arg data) else none
  | 7 => if laneAccess then some (.readLane arg) else none
  | _ => none

/-- ARG is legal for ABSORB (R73). -/
def byteCountLegal (arg : BitVec 5) : Bool := decide (1 ≤ arg.toNat ∧ arg.toNat ≤ 8)

/-- ARG is legal for LOAD_LANE and READ_LANE (R73). -/
def laneIndexLegal (arg : BitVec 5) : Bool := decide (arg.toNat ≤ 24)

/-- ARG is in the range of the opcode (R73, R76). -/
def argLegal (opc : BitVec 4) (arg : BitVec 5) : Bool :=
  match opc.toNat with
  | 2 => byteCountLegal arg
  | 6 => laneIndexLegal arg
  | 7 => laneIndexLegal arg
  | _ => decide (arg.toNat = 0)

/-- The decoder: the opcode check, then the field check (R76). The third check of R76, the phase, depends on the state
and stands with the commands' meanings. -/
def decode (laneAccess : Bool) (c : Command) : Except DecodeError Instr :=
  match selectOpcode laneAccess (opcField c.cmd) (argField c.cmd) c.data with
  | none => .error .illegalOpcode
  | some i =>
    if rsvField c.cmd = 0 ∧ argLegal (opcField c.cmd) (argField c.cmd) = true then .ok i else .error .illegalField

/-! ### The opcode map as a table -/

/-- One row of the opcode map (R75): the word matches when `w AND mask = pattern` and ARG is in `[argMin, argMax]` (R73). -/
structure OpcodeRow where
  mnemonic : String
  pattern  : CmdWord
  mask     : CmdWord
  argMin   : Nat
  argMax   : Nat
  deriving DecidableEq, Repr

/-- The seven rows of R75 with the ARG ranges of R73. -/
def opcodeTable : List OpcodeRow :=
  [⟨"INIT",      0x10000000, 0xFFFFFFFF, 0, 0⟩,
   ⟨"ABSORB",    0x20000000, 0xFFFFFFE0, 1, 8⟩,
   ⟨"FINAL",     0x30000000, 0xFFFFFFFF, 0, 0⟩,
   ⟨"SQUEEZE",   0x40000000, 0xFFFFFFFF, 0, 0⟩,
   ⟨"PERMUTE",   0x50000000, 0xFFFFFFFF, 0, 0⟩,
   ⟨"LOAD_LANE", 0x60000000, 0xFFFFFFE0, 0, 24⟩,
   ⟨"READ_LANE", 0x70000000, 0xFFFFFFE0, 0, 24⟩]

/-- The word `w` matches the row (R75). -/
def OpcodeRow.matchesWord (r : OpcodeRow) (w : CmdWord) : Bool :=
  (w &&& r.mask == r.pattern) && decide (r.argMin ≤ (argField w).toNat) && decide ((argField w).toNat ≤ r.argMax)

/-- The mnemonic of a command (R75). -/
def Instr.mnemonic : Instr → String
  | .init         => "INIT"
  | .absorb _ _   => "ABSORB"
  | .final        => "FINAL"
  | .squeeze      => "SQUEEZE"
  | .permute      => "PERMUTE"
  | .loadLane _ _ => "LOAD_LANE"
  | .readLane _   => "READ_LANE"

/-- The commands that exist only with `LANE_ACCESS = 1` (R75, R162). -/
def Instr.needsLaneAccess : Instr → Bool
  | .init         => false
  | .absorb _ _   => false
  | .final        => false
  | .squeeze      => false
  | .permute      => false
  | .loadLane _ _ => true
  | .readLane _   => true

/-! ### The encoder -/

/-- The word `oooo rrrrrrrrrrrrrrrrrrrrrrr aaaaa` with RSV = 0 (R70, R72). -/
def commandWord (opc : BitVec 4) (arg : BitVec 5) : CmdWord := opc ++ (0 : BitVec 23) ++ arg

/-- The command word and data operand of a command (R75); DATA is 0 where the command has no data operand, as the
assembler writes it (R80). -/
def encode : Instr → Command
  | .init         => ⟨commandWord 1 0, 0⟩
  | .absorb n d   => ⟨commandWord 2 n, d⟩
  | .final        => ⟨commandWord 3 0, 0⟩
  | .squeeze      => ⟨commandWord 4 0, 0⟩
  | .permute      => ⟨commandWord 5 0, 0⟩
  | .loadLane i d => ⟨commandWord 6 i, d⟩
  | .readLane i   => ⟨commandWord 7 i, 0⟩

/-! ### The host's reading of the opcode table -/

/-- The command whose bits are the low `nbits` bits of `w`, every bit above them 0: the command word is bits 31 to 0
and DATA counts on from bit 32 (R70, R79). -/
def commandOfTableWord (nbits w : Nat) : Command :=
  ⟨BitVec.ofNat 32 (w % 2 ^ nbits), BitVec.ofNat 64 (w % 2 ^ nbits / 2 ^ 32)⟩

/-- The instruction the decoder reads from an opcode-table word, in the build that `State.reset` is (log entry 1). -/
def decodeTableWord (nbits w : Nat) : Option Instr :=
  match decode Config.Params.reference.laneAccess (commandOfTableWord nbits w) with
  | .ok i    => some i
  | .error _ => none

end Sys2Proof
end

