-- ==== Sys2Proof/Machine/State.lean ====
section
/-! DEFINITION. The whole machine as plain data: the engine's architectural state (10_state.md rules R21–R29), the
build's parameters (R7), the reset pin (R32), and the host that drives the port: its list of actions, its `pc`, what its
reads returned (R31, R211), and which agent moves where two may (R20). -/

namespace Sys2Proof.Machine

open Sys2Proof.Config

/-- The sponge FSM's mode PHASE, 1 bit: 0 = ABSORB, 1 = SQUEEZE (R23). -/
inductive Phase where
  | absorb
  | squeeze
  deriving DecidableEq, Repr

/-- The two agents whose atomic steps interleave (R20). -/
inductive Agent where
  | host
  | engine
  deriving DecidableEq, Repr

/-- One action of the host (R65, R80). A command carries any word at all, legal or not. -/
inductive HostAction where
  /-- Offer a command until it is accepted (R65, R204). -/
  | command (c : Command)
  /-- `RDSTATUS`: read the STATUS port (R80). -/
  | rdStatus
  /-- `RDRESULT`: read the RESULT port (R80). -/
  | rdResult
  /-- `WAIT_IDLE`: hold until STATUS shows BUSY = 0 (R31, R80). -/
  | waitIdle
  /-- `RESET`: pulse `rst` (R80, R200). -/
  | reset
  /-- Drive the pin `rst` to a level and leave it there (R32, R65; DEDUCED, log entry 7). -/
  | driveRst (level : Bool)
  deriving DecidableEq, Repr

/-- What one read of the host returned (R211; log entry 5). -/
inductive Observation where
  | status (w : BitVec 32)
  | result (w : BitVec 64)
  deriving DecidableEq, Repr

/-- Why a command is not executed (R181). Code 0 (NONE) is no cause, and codes 4–7 are never produced. -/
inductive Cause where
  /-- code 1, ILLEGAL_OPCODE -/
  | illegalOpcode
  /-- code 2, ILLEGAL_FIELD -/
  | illegalField
  /-- code 3, WRONG_PHASE -/
  | wrongPhase
  deriving DecidableEq, Repr

/-- No step of this hardware stops the machine: the permutation and the sponge have no errors (R180), and a command
error transfers no control and stops nothing (R182, R184). So there is no fault, and this type has no constructor (DEDUCED,
log entry 6). -/
inductive Fault where
  deriving DecidableEq, Repr

/-- Why an instruction has no meaning in the model. -/
inductive Refusal where
  /-- Raised by `exec`'s arm of an instruction whose meaning is not written yet; safe, since nothing can be proved of a
  next state. No arm of this model raises it. -/
  | notModelled (mnemonic : String)
  deriving DecidableEq, Repr

/-- The machine. Every field from `lanes` to `result` is a register of the engine; the rest is the build, the reset pin
and the host. -/
@[ext]
structure State where
  /-- The build parameters LANE_ACCESS and ROUND_CYCLES (R7); no step changes them (R188). -/
  params   : Params
  /-- `A[0..24]` (R21). -/
  lanes    : Lanes
  /-- PHASE (R23). -/
  phase    : Phase
  /-- POS, 8 bits, in `[0,135]` (R24). -/
  pos      : BitVec 8
  /-- SQ, 5 bits, in `[0,16]` (R25). -/
  sq       : BitVec 5
  /-- BUSY (R26). -/
  busy     : Bool
  /-- ROUND, 5 bits, in `[0,23]` (R26). -/
  round    : BitVec 5
  /-- PEND_CNT, 3 bits (R27). -/
  pendCnt  : BitVec 3
  /-- `PEND[0..6]` (R27). -/
  pend     : Vector Byte 7
  /-- ERR (R28). -/
  err      : Bool
  /-- CAUSE, 3 bits (R28, R181). -/
  cause    : BitVec 3
  /-- RESULT, 64 bits (R29). -/
  result   : BitVec 64
  /-- The level the host drives on the pin `rst` (R32). -/
  rst      : Bool
  /-- The host's finite list of actions (R31). -/
  program  : List HostAction
  /-- The index of the host's next action (R31). -/
  pc       : Nat
  /-- What the host's reads returned, earliest first (R211). -/
  observed : List Observation
  /-- Which agent moves at each coming point where both may, the next one first (R20; the model's own field, log entry 4). -/
  schedule : List Agent
  deriving DecidableEq, Repr

/-- The state after reset of a build (R36), with a host that has no action left. PEND is unspecified there (R36, D31):
DESIGN CHOICE 0 (log entry 2). -/
def State.resetWith (p : Params) : State where
  params   := p
  lanes    := Vector.replicate 25 0
  phase    := .absorb
  pos      := 0
  sq       := 0
  busy     := false
  round    := 0
  pendCnt  := 0
  pend     := Vector.replicate 7 0
  err      := false
  cause    := 0
  result   := 0
  rst      := false
  program  := []
  pc       := 0
  observed := []
  schedule := []

/-- The machine right after reset (R36, R200), as the build `Params.reference` (log entry 1). -/
def State.reset : State := State.resetWith Params.reference

end Sys2Proof.Machine
end

