-- ==== Sys2Proof/Machine/Flags.lean ====
section
/-! DEFINITION. What is computed from the state for the ports: the STATUS word with its fields (10_state.md rule R34), the
`result` port (R35), `cmd_ready` (R33), and the codes of CAUSE (60_exceptions.md rule R181). -/

namespace Sys2Proof.Machine

open Sys2Proof.Config

/-- A 1-bit field from a flag. -/
def flagBit (b : Bool) : BitVec 1 := BitVec.ofBool b

/-- PHASE as a bit: 0 = ABSORB, 1 = SQUEEZE (R23). -/
def Phase.bit : Phase → BitVec 1
  | .absorb  => 0
  | .squeeze => 1

/-- The code CAUSE holds (R181). -/
def Cause.code : Cause → BitVec 3
  | .illegalOpcode => 1
  | .illegalField  => 2
  | .wrongPhase    => 3

/-- STATUS (R34), bit 31 first: PEND_CNT, ROUND, reserved, SQ, POS, reserved, CAUSE, LANE_ACCESS, ERR, PHASE, BUSY.
The reserved fields are hardwired to 0. -/
def State.statusWord (s : State) : BitVec 32 :=
  s.pendCnt ++ s.round ++ (0 : BitVec 3) ++ s.sq ++ s.pos ++ (0 : BitVec 1) ++ s.cause
    ++ flagBit s.params.laneAccess ++ flagBit s.err ++ s.phase.bit ++ flagBit s.busy

/-- The `result` port shows RESULT (R35). -/
def State.resultPort (s : State) : BitVec 64 := s.result

/-- `cmd_ready = (BUSY = 0) AND (rst = 0)` (R33). -/
def State.cmdReady (s : State) : Bool := !s.busy && !s.rst

end Sys2Proof.Machine
end

