-- ==== Sys2Proof/Machine/Operands.lean ====
section
/-! DEFINITION. Operand forms: the bytes of DATA (30_encoding.md rule R74, 20_memory.md rule R53) and the bytes of a lane
word on the `result` port (R54, R55). -/

namespace Sys2Proof.Machine

/-- Byte `t` of a 64-bit word: bits `[8t+7 : 8t]` (R53, R55). -/
def wordByte (v : BitVec 64) (t : Nat) : Byte := v.extractLsb' (8 * t) 8

/-- Bytes `t … t+k-1` of a 64-bit word, earliest first. -/
def wordBytes (v : BitVec 64) : (t k : Nat) → List Byte
  | _, 0     => []
  | t, k + 1 => wordByte v t :: wordBytes v (t + 1) k

/-- The `n` message bytes an ABSORB carries, earliest first; the bytes above them are ignored (R53, R74). -/
def messageBytes (n : Nat) (data : DataWord) : List Byte := wordBytes data 0 n

/-- The 8 bytes of a lane word, byte 0 in the least significant bits (R50, R55). -/
def laneBytes (v : Lane) : List Byte := wordBytes v 0 8

/-- A byte string of at most 8 bytes read as a little-endian number (R53, R81). -/
def littleEndian : List Byte → Nat
  | []      => 0
  | b :: bs => b.toNat + 256 * littleEndian bs

/-- The bytes read from RESULT values in order: `r0[7:0], r0[15:8], …` (R54, R81). -/
def resultBytes : List (BitVec 64) → List Byte
  | []      => []
  | r :: rs => laneBytes r ++ resultBytes rs

end Sys2Proof.Machine
end

