-- ==== Sys2Proof/Machine/Ops.lean ====
section
/-! DEFINITION. The named operations every meaning is written over: lanes and state bytes (20_memory.md rules R50, R51,
00_scope.md rule R12), the named updates of the registers, raising a command error (60_exceptions.md rule R182) and
clearing it (R185), reset (70_reset_and_hazards.md rule R200), and accepting a command (10_state.md rules R32, R33). -/

namespace Sys2Proof.Machine

open Sys2Proof.Config

/-! ### Lanes and state bytes -/

/-- `A[i]` (R9). The spec names lanes 0 to 24 only; an index past them reads 0 here and no rule uses one (R12;
log entry 11). -/
def lane (a : Lanes) (i : Nat) : Lane := a.getD i 0

/-- `A[i] <- v` (R9). -/
def setLane (a : Lanes) (i : Nat) (v : Lane) : Lanes := a.setIfInBounds i v

/-- The zero state (R130). -/
def zeroLanes : Lanes := Vector.replicate 25 0

/-- Byte `t` of a lane word replaced by `b`, for `t < 8` (R50). -/
def replaceByte (v : Lane) (t : Nat) (b : Byte) : Lane :=
  (v &&& ~~~((0xFF : Lane) <<< (8 * t))) ||| (b.setWidth 64 <<< (8 * t))

/-- `SB(j)`: bits `[8*(j mod 8)+7 : 8*(j mod 8)]` of lane `A[j div 8]` (R50). -/
def sb (a : Lanes) (j : Nat) : Byte := wordByte (lane a (j / 8)) (j % 8)

/-- `SB(j) <- b` (R12, R50). -/
def setSb (a : Lanes) (j : Nat) (b : Byte) : Lanes := setLane a (j / 8) (replaceByte (lane a (j / 8)) (j % 8) b)

/-- `SB(j) ^= b` (R12). -/
def xorSb (a : Lanes) (j : Nat) (b : Byte) : Lanes := setSb a j (sb a j ^^^ b)

/-- `for t in [0, len(bs)): SB(j + t) ^= bs[t]` (R14). -/
def xorBytes : (a : Lanes) → (j : Nat) → List Byte → Lanes
  | a, _, []      => a
  | a, j, b :: bs => xorBytes (xorSb a j b) (j + 1) bs

/-- `MemRead(j, n)`: state bytes `SB(j) … SB(j+n-1)` as a little-endian number (R12). -/
def memRead (a : Lanes) : (j n : Nat) → Nat
  | _, 0     => 0
  | j, n + 1 => (sb a j).toNat + 256 * memRead a (j + 1) n

/-- `MemWrite(j, n, v)`: the low `n` bytes of `v` into `SB(j) … SB(j+n-1)`, the least significant first (R12). -/
def memWrite : (a : Lanes) → (j n v : Nat) → Lanes
  | a, _, 0, _     => a
  | a, j, n + 1, v => memWrite (setSb a j (BitVec.ofNat 8 v)) (j + 1) n (v / 256)

/-! ### The registers' named updates -/

/-- `A <- a` for all 25 lanes. -/
def State.setLanes (s : State) (a : Lanes) : State := { s with lanes := a }
/-- `PHASE <- p` (R23). -/
def State.setPhase (s : State) (p : Phase) : State := { s with phase := p }
/-- `POS <- n`, narrowed to 8 bits (R24). -/
def State.setPos (s : State) (n : Nat) : State := { s with pos := BitVec.ofNat 8 n }
/-- `SQ <- n`, narrowed to 5 bits (R25). -/
def State.setSq (s : State) (n : Nat) : State := { s with sq := BitVec.ofNat 5 n }
/-- `BUSY <- 1; ROUND <- 0`: a permutation starts (R26). -/
def State.startPermutation (s : State) : State := { s with busy := true, round := 0 }
/-- `BUSY <- 0; ROUND <- 0`: a permutation ends (R109). -/
def State.endPermutation (s : State) : State := { s with busy := false, round := 0 }
/-- `ROUND <- n`, narrowed to 5 bits (R26). -/
def State.setRound (s : State) (n : Nat) : State := { s with round := BitVec.ofNat 5 n }
/-- `PEND_CNT <- n`, narrowed to 3 bits (R27). -/
def State.setPendCnt (s : State) (n : Nat) : State := { s with pendCnt := BitVec.ofNat 3 n }
/-- `PEND <- p` (R27). -/
def State.setPend (s : State) (p : Vector Byte 7) : State := { s with pend := p }
/-- `RESULT <- v` (R29). -/
def State.setResult (s : State) (v : BitVec 64) : State := { s with result := v }
/-- The pin `rst` is driven to a level (R32). -/
def State.setRst (s : State) (level : Bool) : State := { s with rst := level }
/-- `pc <- pc + 1` (R31). -/
def State.advancePc (s : State) : State := { s with pc := s.pc + 1 }
/-- A read of the host returned a value (R211). -/
def State.observe (s : State) (o : Observation) : State := { s with observed := s.observed ++ [o] }
/-- The host's list of actions is replaced. -/
def State.setProgram (s : State) (p : List HostAction) : State := { s with program := p }
/-- The coming choices between the agents are replaced. -/
def State.setSchedule (s : State) (l : List Agent) : State := { s with schedule := l }

/-! ### Pending bytes -/

/-- `for t in [0, len(bs)): PEND[k + t] <- bs[t]` (R27, R136). -/
def storePend : (p : Vector Byte 7) → (k : Nat) → List Byte → Vector Byte 7
  | p, _, []      => p
  | p, k, b :: bs => storePend (p.setIfInBounds k b) (k + 1) bs

/-- The bytes `PEND[0] … PEND[PEND_CNT-1]` (R27). -/
def State.pendingBytes (s : State) : List Byte := s.pend.toList.take s.pendCnt.toNat

/-! ### Command errors -/

/-- `raise CommandError(c)`: only the error record changes, and CAUSE keeps the first error (R182). -/
def State.raise (s : State) (c : Cause) : State :=
  { s with cause := if s.err then s.cause else c.code, err := true }

/-- `ERR <- 0; CAUSE <- 0`, as INIT does (R135, R185). -/
def State.clearError (s : State) : State := { s with err := false, cause := 0 }

/-- The first cause whose check fails, in the order of the list (R183). -/
def firstCause : List (Bool × Cause) → Option Cause
  | []                 => none
  | (fails, c) :: rest => if fails then some c else firstCause rest

/-! ### Reset -/

/-- Every register of the engine at its reset value, whatever the engine was doing; the build, the pin and the host stay
(R36, R200). PEND is unspecified there: DESIGN CHOICE 0 (log entry 2). -/
def State.applyReset (s : State) : State :=
  { State.resetWith s.params with
    rst := s.rst, program := s.program, pc := s.pc, observed := s.observed, schedule := s.schedule }

/-! ### Accepting a command -/

/-- A command that is offered: executed when `cmd_ready = 1`, and otherwise held with no effect (R32, R204). When it is
accepted, the first failing check raises its cause and the command is not executed (R182, R183); else it has its effect. -/
def State.whenAccepted (checks : List (Bool × Cause)) (effect : State → State) (s : State) :
    Host.Outcome State Fault Refusal :=
  if s.cmdReady then
    match firstCause checks with
    | some c => .next (s.raise c)
    | none   => .next (effect s)
  else .next s

/-- An outcome with its next state changed, and a fault or a refusal as it is. -/
def mapNext (f : State → State) : Host.Outcome State Fault Refusal → Host.Outcome State Fault Refusal
  | .next s    => .next (f s)
  | .fault r   => .fault r
  | .refused r => .refused r

end Sys2Proof.Machine
end

