-- ==== Sys2Proof/Machine/LaneAccess.lean ====
section
/-! DEFINITION. The engine-test commands LOAD_LANE and READ_LANE (42_lane_access.md rules R160–R162). -/

namespace Sys2Proof.Machine

/-- What a lane command checks when it is accepted: it exists only with `LANE_ACCESS = 1` (cause 1), and its lane index is
at most 24 (cause 2); it is legal in both phases (R76, R160, R161). -/
def laneChecks (i : BitVec 5) (s : State) : List (Bool × Cause) :=
  [(!s.params.laneAccess, .illegalOpcode), (!laneIndexLegal i, .illegalField)]

/-- LOAD_LANE i, data: `A[i] <- data` (R160). -/
def execLoadLane (i : BitVec 5) (data : DataWord) (s : State) : Host.Outcome State Fault Refusal :=
  s.whenAccepted (laneChecks i s) fun t => t.setLanes (setLane t.lanes i.toNat data)

/-- READ_LANE i: `RESULT <- A[i]` (R161). -/
def execReadLane (i : BitVec 5) (s : State) : Host.Outcome State Fault Refusal :=
  s.whenAccepted (laneChecks i s) fun t => t.setResult (lane t.lanes i.toNat)

end Sys2Proof.Machine
end

