-- ==== Sys2Proof/Machine/Permutation.lean ====
section
/-! DEFINITION. The permutation Keccak-f[1600] (40_permutation.md): the two constant tables and the rules that generate
them (R104, R107), the four steps of a round (R102–R106), the whole permutation (R100), the engine step (R109) and the
command PERMUTE (R110). -/

namespace Sys2Proof.Machine

open Sys2Proof.Config

/-! ### Word rotation -/

/-- PRESUMED by the spec (log entry 10): `rotl(v, n)` for `n ∈ [0,63]`: `((v << n) OR (v >> (64 - n))) mod 2^64`, which for `n = 0` is `v` (R11). -/
def rotl (v : Lane) (n : Nat) : Lane := (v <<< n) ||| (v >>> (64 - n))

/-! ### The constant tables -/

/-- The rows `x = 0 … 4` of the rotation offsets, each listing `y = 0 … 4` (R104). -/
def rotTable : List (List Nat) :=
  [[0, 36, 3, 41, 18],
   [1, 44, 10, 45, 2],
   [62, 6, 43, 15, 61],
   [28, 55, 25, 21, 56],
   [27, 20, 39, 8, 14]]

/-- `ROT[x][y]` (R104). -/
def rot (x y : Nat) : Nat := (rotTable.getD x []).getD y 0

/-- The twelve rows of R107's table: row `ir` holds `RC[ir]` and `RC[ir + 12]`. -/
def rcRows : List (Lane × Lane) :=
  [(0x0000000000000001, 0x000000008000808B),
   (0x0000000000008082, 0x800000000000008B),
   (0x800000000000808A, 0x8000000000008089),
   (0x8000000080008000, 0x8000000000008003),
   (0x000000000000808B, 0x8000000000008002),
   (0x0000000080000001, 0x8000000000000080),
   (0x8000000080008081, 0x000000000000800A),
   (0x8000000000008009, 0x800000008000000A),
   (0x000000000000008A, 0x8000000080008081),
   (0x0000000000000088, 0x8000000000008080),
   (0x0000000080008009, 0x0000000080000001),
   (0x000000008000000A, 0x8000000080008008)]

/-- `RC[ir]`: the left column of R107's table for `ir < 12`, the right one after. -/
def rc (ir : Nat) : Lane :=
  if ir < 12 then (rcRows.getD ir (0, 0)).1 else (rcRows.getD (ir - 12) (0, 0)).2

/-! ### The rules that generate the tables -/

/-- One step of the walk `(x, y) <- (y, (2x+3y) mod 5)` (R104). -/
def walkStep (p : Nat × Nat) : Nat × Nat := (p.2, (2 * p.1 + 3 * p.2) % 5)

/-- The place the walk reaches at `t`, from `(1, 0)` at `t = 0` (R104). -/
def walk : Nat → Nat × Nat
  | 0     => (1, 0)
  | t + 1 => walkStep (walk t)

/-- The offset the rule gives at `t`: `((t+1)(t+2)/2) mod 64` (R104). -/
def walkOffset (t : Nat) : Nat := (t + 1) * (t + 2) / 2 % 64

/-- One step of the LFSR `x^8 + x^6 + x^5 + x^4 + 1` on its 8-bit register (R107). -/
def lfsrStep (r : BitVec 8) : BitVec 8 := if r.msb then (r <<< 1) ^^^ 0x71 else r <<< 1

/-- The register after `t` steps, started at 1 (R107). -/
def lfsr : Nat → BitVec 8
  | 0     => 1
  | t + 1 => lfsrStep (lfsr t)

/-- `rc(t)`, the LFSR's output bit (R107). -/
def lfsrBit (t : Nat) : Bool := (lfsr t).getLsbD 0

/-- The constant the rule gives: bit `2^j - 1` is `rc(j + 7*ir)` for `j ∈ [0,7)`, and every other bit is 0 (R107). -/
def generatedRc (ir : Nat) : Lane :=
  (List.range 7).foldl (fun v j => if lfsrBit (j + 7 * ir) then v ||| (1 <<< (2 ^ j - 1)) else v) 0

/-! ### The steps of a round -/

/-- `C[x]`, the column parity of theta (R102). -/
def thetaC (a : Lanes) (x : Nat) : Lane :=
  lane a x ^^^ lane a (x + 5) ^^^ lane a (x + 10) ^^^ lane a (x + 15) ^^^ lane a (x + 20)

/-- `D[x] = C[(x-1) mod 5] XOR rotl(C[(x+1) mod 5], 1)`, with `(x-1) mod 5` the non-negative remainder (R10, R102). -/
def thetaD (a : Lanes) (x : Nat) : Lane := thetaC a ((x + 4) % 5) ^^^ rotl (thetaC a ((x + 1) % 5)) 1

/-- Theta (R102). -/
def theta (a : Lanes) : Lanes := Vector.ofFn fun i : Fin 25 => lane a i ^^^ thetaD a (i % 5)

/-- The 25 places `(x, y)` of the state. -/
def places : List (Nat × Nat) := (List.range 5).flatMap fun y => (List.range 5).map fun x => (x, y)

/-- One lane of rho and pi: `B[y + 5*((2x + 3y) mod 5)] = rotl(A[x + 5y], ROT[x][y])` (R103). -/
def rhoPiPlace (a b : Lanes) (p : Nat × Nat) : Lanes :=
  setLane b (p.2 + 5 * ((2 * p.1 + 3 * p.2) % 5)) (rotl (lane a (p.1 + 5 * p.2)) (rot p.1 p.2))

/-- Rho and pi: the new buffer `B`, every lane of it written once (R103). -/
def rhoPi (a : Lanes) : Lanes := places.foldl (rhoPiPlace a) zeroLanes

/-- Chi, every term read from its input (R105). -/
def chi (b : Lanes) : Lanes :=
  Vector.ofFn fun i : Fin 25 =>
    lane b i ^^^ (~~~(lane b ((i % 5 + 1) % 5 + 5 * (i / 5))) &&& lane b ((i % 5 + 2) % 5 + 5 * (i / 5)))

/-- Iota (R106). -/
def iota (a : Lanes) (ir : Nat) : Lanes := setLane a 0 (lane a 0 ^^^ rc ir)

/-- One round (R101). -/
def rnd (a : Lanes) (ir : Nat) : Lanes := iota (chi (rhoPi (theta a))) ir

/-- Rounds `first … first+k-1` in order. -/
def rounds : (a : Lanes) → (first k : Nat) → Lanes
  | a, _, 0         => a
  | a, first, k + 1 => rounds (rnd a first) (first + 1) k

/-- `KeccakF(A)`: rounds 0 to 23 in order (R100). -/
def keccakF (a : Lanes) : Lanes := rounds a 0 nRounds

/-! ### The engine step -/

/-- The end of a permutation: BUSY and ROUND cleared, the pending bytes XORed in from `SB(POS)`, POS past them, none
pending (R109). -/
def State.finishPermutation (s : State) : State :=
  (((s.endPermutation.setLanes (xorBytes s.lanes s.pos.toNat s.pendingBytes)).setPos
    (s.pos.toNat + s.pendCnt.toNat)).setPendCnt 0)

/-- The engine step, enabled iff BUSY = 1: one round, and after round 23 the end of the permutation (R109). -/
def engineStep (s : State) : State :=
  let t := s.setLanes (rnd s.lanes s.round.toNat)
  if s.round.toNat = 23 then t.finishPermutation else t.setRound (s.round.toNat + 1)

/-- `k` engine steps. -/
def engineSteps : Nat → State → State
  | 0,     s => s
  | k + 1, s => engineSteps k (engineStep s)

/-! ### PERMUTE -/

/-- PERMUTE: run Keccak-f[1600] on the state as it stands (R110). -/
def execPermute (s : State) : Host.Outcome State Fault Refusal :=
  s.whenAccepted [] fun t => t.startPermutation

end Sys2Proof.Machine
end

