-- ==== Sys2Proof/Machine/Sponge.lean ====
section
/-! DEFINITION. The four sponge commands INIT, ABSORB, FINAL and SQUEEZE (41_sponge.md rules R135–R138), each with the
checks it makes when it is accepted (30_encoding.md rule R76). -/

namespace Sys2Proof.Machine

open Sys2Proof.Config

/-! ### INIT -/

/-- What INIT writes, in the order of its pseudocode (R135). PEND, BUSY and ROUND are not among it. -/
def initialise (s : State) : State :=
  ((((((s.setLanes zeroLanes).setPhase .absorb).setPos 0).setSq 0).setPendCnt 0).clearError).setResult 0

/-- INIT: start a new digest computation; legal in both phases (R135). -/
def execInit (s : State) : Host.Outcome State Fault Refusal :=
  s.whenAccepted [] initialise

/-! ### ABSORB -/

/-- How many of `n` bytes fit in the current block: `min(n, 136 - POS)` (R136). -/
def fitting (s : State) (n : Nat) : Nat := min n (rate - s.pos.toNat)

/-- The block is full: POS is 0, the bytes past the block's end wait in PEND, and the permutation starts (R136). -/
def closeBlock (rest : List Byte) (s : State) : State :=
  ((((s.setPos 0).setPend (storePend s.pend 0 rest)).setPendCnt rest.length).startPermutation)

/-- What ABSORB of `n` bytes writes (R136). -/
def absorbEffect (n : Nat) (data : DataWord) (s : State) : State :=
  let k := fitting s n
  let t := s.setLanes (xorBytes s.lanes s.pos.toNat (wordBytes data 0 k))
  if s.pos.toNat + k = rate then closeBlock (wordBytes data k (n - k)) t else t.setPos (s.pos.toNat + k)

/-- ABSORB n, data: absorb the next `n` message bytes; cause 2 for `n` outside 1 to 8, then cause 3 in SQUEEZE phase (R136). -/
def execAbsorb (n : BitVec 5) (data : DataWord) (s : State) : Host.Outcome State Fault Refusal :=
  s.whenAccepted [(!byteCountLegal n, .illegalField), (decide (s.phase ≠ .absorb), .wrongPhase)]
    (absorbEffect n.toNat data)

/-! ### FINAL -/

/-- What FINAL writes: `SB(POS) ^= 0x01`, `SB(135) ^= 0x80`, then the phase and the permutation (R137). -/
def finalEffect (s : State) : State :=
  (((((s.setLanes (xorSb (xorSb s.lanes s.pos.toNat dsByte) (rate - 1) lastByte)).setPhase .squeeze).setSq 0).setPos 0).startPermutation)

/-- FINAL: pad the message and absorb the last block; cause 3 in SQUEEZE phase (R137). -/
def execFinal (s : State) : Host.Outcome State Fault Refusal :=
  s.whenAccepted [(decide (s.phase ≠ .absorb), .wrongPhase)] finalEffect

/-! ### SQUEEZE -/

/-- What SQUEEZE writes: RESULT is the lane SQ names, SQ moves on, and after the 17th lane the permutation starts (R138). -/
def squeezeEffect (s : State) : State :=
  let t := s.setResult (lane s.lanes s.sq.toNat)
  if s.sq.toNat + 1 = rateLanes then (t.setSq 0).startPermutation else t.setSq (s.sq.toNat + 1)

/-- SQUEEZE: return the next output lane; cause 3 in ABSORB phase (R138). -/
def execSqueeze (s : State) : Host.Outcome State Fault Refusal :=
  s.whenAccepted [(decide (s.phase ≠ .squeeze), .wrongPhase)] squeezeEffect

end Sys2Proof.Machine
end

