-- ==== Sys2Proof/Machine/HostPort.lean ====
section
/-! DEFINITION. The port between the two agents (10_state.md rules R20, R31–R33; 20_memory.md rule R65): accepting and
decoding a command (30_encoding.md rule R76), the host's actions (R80), which agent may move, and which does. -/

namespace Sys2Proof.Machine

open Sys2Proof.Config

/-! ### The host's side of the port -/

/-- The host's next action: the one `pc` names, none when the list has ended (R31). -/
def State.currentAction (s : State) : Option HostAction := s.program[s.pc]?

/-- `cmd_valid`: the host offers a command, and holds it until it is accepted (R32, R204). -/
def State.cmdValid (s : State) : Bool :=
  match s.currentAction with
  | some (.command _) => true
  | _                 => false

/-- `cmd` and `cmd_data` while `cmd_valid = 1` (R32). -/
def State.offered (s : State) : Option Command :=
  match s.currentAction with
  | some (.command c) => some c
  | _                 => none

/-- The step where a command is accepted: `cmd_valid = 1` and `cmd_ready = 1` (R32). -/
def State.accepts (s : State) : Bool := s.cmdValid && s.cmdReady

/-! ### Decoding and executing an accepted command -/

/-- The cause a decoding error raises (R76). -/
def decodeCause : DecodeError → Cause
  | .illegalOpcode => .illegalOpcode
  | .illegalField  => .illegalField

/-- A command on the port: decoded, then executed by its rule, or its cause raised (R76). -/
def runCommand (c : Command) (s : State) : Host.Outcome State Fault Refusal :=
  match decode s.params.laneAccess c with
  | .ok i    => exec i s
  | .error e => s.whenAccepted [(true, decodeCause e)] id

/-! ### Who may move -/

/-- The engine step is enabled only when BUSY = 1 (R20), and not while `rst = 1` (R200). -/
def State.engineEnabled (s : State) : Bool := s.busy && !s.rst

/-- The host's next action is enabled: a command when `cmd_ready = 1`, WAIT_IDLE when BUSY = 0 (R31), and a read or a
reset at every point (R20, R65). -/
def State.hostEnabled (s : State) : Bool :=
  match s.currentAction with
  | none               => false
  | some (.command _)  => s.cmdReady
  | some .rdStatus     => true
  | some .rdResult     => true
  | some .waitIdle     => !s.busy
  | some .reset        => true
  | some (.driveRst _) => true

/-- Both agents may move, so the order of their steps is open (R20). -/
def State.contended (s : State) : Bool := s.hostEnabled && s.engineEnabled

/-- The agent that moves: the one that may, and where both may the one the schedule names next. DESIGN CHOICE: the engine
where the schedule has ended (log entry 4). -/
def State.nextAgent (s : State) : Option Agent :=
  if s.contended then some (s.schedule.headD .engine)
  else if s.hostEnabled then some .host
  else if s.engineEnabled then some .engine
  else none

/-- A choice between the agents uses up the schedule's next entry. -/
def State.takeTurn (s : State) : State :=
  if s.contended then s.setSchedule s.schedule.tail else s

/-! ### The two agents' steps -/

/-- One action of the host, where it is enabled (R31, R65, R80). A command or a read leaves its mark and `pc` moves on; a
reset puts the engine's registers at their reset values (R200; DEDUCED, log entries 5 and 7). -/
def hostStep (s : State) : Host.Outcome State Fault Refusal :=
  match s.currentAction with
  | none                   => .next s
  | some (.command c)      => mapNext State.advancePc (runCommand c s)
  | some .rdStatus         => .next (s.observe (.status s.statusWord)).advancePc
  | some .rdResult         => .next (s.observe (.result s.resultPort)).advancePc
  | some .waitIdle         => .next s.advancePc
  | some .reset            => .next (s.applyReset.setRst false).advancePc
  | some (.driveRst true)  => .next (s.applyReset.setRst true).advancePc
  | some (.driveRst false) => .next (s.setRst false).advancePc

/-- The step of the agent that moves. Where neither may, the state stays: an idle engine changes nothing until a command
is accepted or reset is asserted (R193), and a held host waits (R204). -/
def agentStep (s : State) : Host.Outcome State Fault Refusal :=
  match s.nextAgent with
  | some .host   => hostStep s.takeTurn
  | some .engine => .next (engineStep s.takeTurn)
  | none         => .next s

/-! ### Placing a command before the host -/

/-- The host's list with the action `a` at index `n`; a list shorter than `n` is filled up with reads. -/
def placeAction (p : List HostAction) (n : Nat) (a : HostAction) : List HostAction :=
  p.take n ++ List.replicate (n - p.length) .rdStatus ++ a :: p.drop (n + 1)

end Sys2Proof.Machine
end

