-- ==== Sys2Proof/Machine/Step.lean ====
section
/-! DEFINITION. The machine's one step, and how the next command comes before it (10_state.md rules R20, R31). -/

namespace Sys2Proof.Machine

/-- One step of the machine: one atomic step of the agent that moves (R20). -/
def step (s : State) : Host.Outcome State Fault Refusal := agentStep s

/-- `s` with the command of an opcode-table word as the host's next action. The engine fetches no commands (R31, R63), so
this stands for the host's offering it: where `cmd_ready = 1` the very next step accepts it (log entry 3). -/
def State.withFetchWord (s : State) (nbits w : Nat) : State :=
  s.setProgram (placeAction s.program s.pc (.command (commandOfTableWord nbits w)))

end Sys2Proof.Machine
end

