-- ==== Sys2Proof/Machine/Keccak256.lean ====
section
/-! DEFINITION. The function the engine computes, as a pure function of the message bytes (41_sponge.md rules R130–R134),
and the rendering of a digest (00_scope.md rule R15). The commands are held to it (R139). -/

namespace Sys2Proof.Machine

open Sys2Proof.Config

/-! ### Padding -/

/-- `pad(m)`: `m ‖ [0x01] ‖ [0x00] * (135 - r)` with `r = len(m) mod 136`, and then `0x80` ORed into the last byte (R131). -/
def padMessage (m : List Byte) : List Byte :=
  let q := m ++ [dsByte] ++ List.replicate (rate - 1 - m.length % rate) 0
  q.modify (q.length - 1) fun b => b ||| lastByte

/-- Block `k`: bytes `136k … 136k+135` (R16). -/
def blockAt (p : List Byte) (k : Nat) : List Byte := (p.drop (rate * k)).take rate

/-! ### Absorbing -/

/-- Absorbing one block: its bytes XORed into the rate, then the permutation (R130, R132). -/
def absorbBlock (a : Lanes) (block : List Byte) : Lanes := keccakF (xorBytes a 0 block)

/-- Blocks `0 … k-1` of `p` absorbed in order from the zero state (R130). -/
def absorbBlocks (p : List Byte) (k : Nat) : Lanes :=
  (List.range k).foldl (fun a i => absorbBlock a (blockAt p i)) zeroLanes

/-- One block decoded "as seventeen little-endian 8-byte words", each XORed into its lane: the form R132 quotes. -/
def xorBlockWords (a : Lanes) (block : List Byte) : Lanes :=
  (List.range rateLanes).foldl
    (fun b i => setLane b i (lane b i ^^^ BitVec.ofNat 64 (littleEndian ((block.drop (8 * i)).take 8)))) a

/-! ### Squeezing -/

/-- The rate bytes `SB(0) … SB(135)` (R133). -/
def rateBytes (a : Lanes) : List Byte := (List.range rate).map (sb a)

/-- The rate bytes of `k` output blocks, the permutation between one block and the next (R133). -/
def squeezeBlocks : (a : Lanes) → (k : Nat) → List Byte
  | _, 0     => []
  | a, k + 1 => rateBytes a ++ squeezeBlocks (keccakF a) k

/-- `squeeze(A, o)`: the first `o` output bytes (R133). -/
def squeezeOutput (a : Lanes) (o : Nat) : List Byte := (squeezeBlocks a (o / rate + 1)).take o

/-! ### The function -/

/-- The state after the last absorbed block of `pad(m)` (R130). -/
def absorbedState (m : List Byte) : Lanes := absorbBlocks (padMessage m) ((padMessage m).length / rate)

/-- `keccak256(m)` (R130). -/
def keccak256 (m : List Byte) : List Byte := squeezeOutput (absorbedState m) digestLength

/-- How many times `keccak256(m)` applies KeccakF: once per block of `pad(m)` and none in the squeeze (R134). -/
def permutationCount (m : List Byte) : Nat := (padMessage m).length / rate

/-! ### Rendering -/

/-- One hexadecimal digit, lowercase (R15). -/
def hexDigit (n : Nat) : Char := (['0', '1', '2', '3', '4', '5', '6', '7', '8', '9', 'a', 'b', 'c', 'd', 'e', 'f'].getD n '0')

/-- The two digits of a byte, the high nibble first (R15). -/
def hexByte (b : Byte) : List Char := [hexDigit (b.toNat / 16), hexDigit (b.toNat % 16)]

/-- A digest as `0x` and its bytes in order (R15). -/
def renderDigest (d : List Byte) : String := String.ofList ('0' :: 'x' :: d.flatMap hexByte)

end Sys2Proof.Machine
end

