-- ==== Sys2Proof/Machine/Assembler.lean ====
section
/-! DEFINITION. Host programs: the commands and host actions of the assembler (30_encoding.md rule R80), the
pseudo-instructions ABSORB_BYTES and HASH256 (R81), and the written form of a line (R80). -/

namespace Sys2Proof.Machine

open Sys2Proof.Config

/-! ### Commands and pseudo-instructions as host actions -/

/-- The host action of a command as the assembler writes it (R80). -/
def assemble (i : Instr) : HostAction := .command (encode i)

/-- `ABSORB c, d` for the bytes of one chunk, `c` of them, `d` their little-endian number (R81). -/
def absorbChunk (chunk : List Byte) : Instr :=
  .absorb (BitVec.ofNat 5 chunk.length) (BitVec.ofNat 64 (littleEndian chunk))

/-- How many ABSORB commands carry `L` bytes: `ceil(L/8)` (R81). -/
def chunkCount (len : Nat) : Nat := (len + 7) / 8

/-- `ABSORB_BYTES m`: command `k` absorbs bytes `8k … min(8k+8, L) - 1` (R81). -/
def absorbBytes (m : List Byte) : List Instr :=
  (List.range (chunkCount m.length)).map fun k => absorbChunk ((m.drop (8 * k)).take 8)

/-- `j` times SQUEEZE followed by RDRESULT (R81). -/
def squeezeReads : Nat → List HostAction
  | 0     => []
  | j + 1 => assemble .squeeze :: .rdResult :: squeezeReads j

/-- INIT, the given ABSORB commands, FINAL, then `j` times SQUEEZE and RDRESULT: the host's order of work (R202). -/
def digestProgram (absorbs : List Instr) (j : Nat) : List HostAction :=
  assemble .init :: (absorbs.map assemble ++ assemble .final :: squeezeReads j)

/-- `HASH256 m` (R81). -/
def hash256 (m : List Byte) : List HostAction := digestProgram (absorbBytes m) 4

/-! ### The written form of a line -/

/-- The ten decimal digits. -/
def decimalDigit (n : Nat) : Char := hexDigit (n % 10)

/-- A number below 100 in decimal, as `n` and `i` are written (R80). -/
def decimalText (n : Nat) : List Char :=
  if n < 10 then [decimalDigit n] else [decimalDigit (n / 10), decimalDigit n]

/-- The 16 hexadecimal digits of a 64-bit number after `0x`, the most significant first (R80). -/
def dataText (d : DataWord) : List Char :=
  '0' :: 'x' :: (List.range 16).map fun k => hexDigit ((d.toNat / 16 ^ (15 - k)) % 16)

/-- A command's line: the mnemonic first, operands separated by commas (R80). -/
def lineText : Instr → List Char
  | .init         => "INIT".toList
  | .absorb n d   => "ABSORB ".toList ++ decimalText n.toNat ++ ", ".toList ++ dataText d
  | .final        => "FINAL".toList
  | .squeeze      => "SQUEEZE".toList
  | .permute      => "PERMUTE".toList
  | .loadLane i d => "LOAD_LANE ".toList ++ decimalText i.toNat ++ ", ".toList ++ dataText d
  | .readLane i   => "READ_LANE ".toList ++ decimalText i.toNat

/-! ### Reading a line -/

/-- The part of a line before its comment (R80; DESIGN CHOICE, log entry 9, for what R80 leaves open of the text). -/
def stripComment (l : List Char) : List Char := l.takeWhile (· != ';')

/-- A text without the blanks at its two ends. -/
def trimBlanks (l : List Char) : List Char :=
  ((l.dropWhile (· == ' ')).reverse.dropWhile (· == ' ')).reverse

/-- The parts of a text between its commas (R80). -/
def splitCommas : List Char → List (List Char)
  | []      => [[]]
  | c :: cs =>
    if c = ',' then [] :: splitCommas cs
    else
      match splitCommas cs with
      | []      => [[c]]
      | p :: ps => (c :: p) :: ps

/-- The operands after the mnemonic, none where nothing follows it. -/
def operandTexts (rest : List Char) : List (List Char) :=
  if trimBlanks rest = [] then [] else (splitCommas rest).map trimBlanks

/-- The value of a digit in a base of at most 16, upper or lower case. -/
def digitValue (base : Nat) (c : Char) : Option Nat :=
  let v := if '0'.toNat ≤ c.toNat ∧ c.toNat ≤ '9'.toNat then c.toNat - '0'.toNat
    else if 'a'.toNat ≤ c.toNat ∧ c.toNat ≤ 'f'.toNat then c.toNat - 'a'.toNat + 10
    else if 'A'.toNat ≤ c.toNat ∧ c.toNat ≤ 'F'.toNat then c.toNat - 'A'.toNat + 10
    else base
  if v < base then some v else none

/-- The value of digits, the most significant first, after the value `acc` of the digits before them. -/
def digitsValue (base : Nat) : (acc : Nat) → List Char → Option Nat
  | acc, []      => some acc
  | acc, c :: cs =>
    match digitValue base c with
    | some v => digitsValue base (base * acc + v) cs
    | none   => none

/-- `n` or `i`: decimal (R80), and a value ARG's 5 bits hold. -/
def readArg (l : List Char) : Option (BitVec 5) :=
  if l = [] then none
  else
    match digitsValue 10 0 l with
    | some v => if v < 32 then some (BitVec.ofNat 5 v) else none
    | none   => none

/-- `data`: a hexadecimal number of at most 64 bits, written `0x…` (R80). -/
def readData : List Char → Option DataWord
  | '0' :: 'x' :: d :: ds =>
    match digitsValue 16 0 (d :: ds) with
    | some v => if v < 2 ^ 64 then some (BitVec.ofNat 64 v) else none
    | none   => none
  | _ => none

/-- The host actions of a line: none for a blank or comment line, one for a command or a host action; a line that is
neither has no reading (R80). -/
def assembleLine (line : List Char) : Option (List HostAction) :=
  let body := trimBlanks (stripComment line)
  let word := body.takeWhile (· != ' ')
  match operandTexts (body.dropWhile (· != ' ')) with
  | [] =>
    if body = [] then some []
    else if word = "INIT".toList then some [assemble .init]
    else if word = "FINAL".toList then some [assemble .final]
    else if word = "SQUEEZE".toList then some [assemble .squeeze]
    else if word = "PERMUTE".toList then some [assemble .permute]
    else if word = "RDSTATUS".toList then some [.rdStatus]
    else if word = "RDRESULT".toList then some [.rdResult]
    else if word = "WAIT_IDLE".toList then some [.waitIdle]
    else if word = "RESET".toList then some [.reset]
    else none
  | [a] =>
    if word = "READ_LANE".toList then (readArg a).map fun i => [assemble (.readLane i)] else none
  | [a, d] =>
    match readArg a, readData d with
    | some n, some v =>
      if word = "ABSORB".toList then some [assemble (.absorb n v)]
      else if word = "LOAD_LANE".toList then some [assemble (.loadLane n v)]
      else none
    | _, _ => none
  | _ => none

end Sys2Proof.Machine
end

