-- ==== Sys2Proof/Machine/Platform.lean ====
section
/-! DEFINITION. Several engines on one platform (60_exceptions.md rule R191): each instance has its own complete state,
and nothing is shared. -/

namespace Sys2Proof.Machine

/-- One step of instance `k`; where there is no such instance nothing moves (R191). -/
def platformStep (k : Nat) (p : List State) : Host.Outcome (List State) Fault Refusal :=
  match p[k]? with
  | none   => .next p
  | some s =>
    match step s with
    | .next t    => .next (p.set k t)
    | .fault r   => .fault r
    | .refused r => .refused r

end Sys2Proof.Machine
end

