-- ==== Sys2Proof/Safety.lean ====
section
/-! DEFINITION. The terms the claims use: the invariants of the state (10_state.md rule R37 and the rules beside it), the
reset values (R36), a cause read straight from R76, what a digest's commands are (R202), the rate and the capacity (R22),
and the end of a host program (R211). -/

namespace Sys2Proof.Machine

open Sys2Proof.Config

/-! ### Invariants -/

/-- R37: `POS < 136`; `SQ < 17`; `ROUND < 24`; `BUSY = 0 ⇒ ROUND = 0 ∧ PEND_CNT = 0`; `CAUSE = 0 ⇔ ERR = 0`. -/
abbrev State.FieldsInRange (s : State) : Prop :=
  s.pos.toNat < 136 ∧ s.sq.toNat < 17 ∧ s.round.toNat < 24 ∧
    (s.busy = false → s.round = 0 ∧ s.pendCnt = 0) ∧ (s.cause = 0 ↔ s.err = false)

/-- R109: "When `PEND_CNT > 0`, POS is 0". -/
abbrev State.PendingAtBlockStart (s : State) : Prop := s.pendCnt ≠ 0 → s.pos = 0

/-- R181: codes 4–7 are never produced. -/
abbrev State.CauseProduced (s : State) : Prop := s.cause.toNat ≤ 3

/-- The engine's registers at the reset values of R36, all but PEND, which R36 leaves unspecified. -/
abbrev State.RegistersReset (s : State) : Prop :=
  s.lanes = zeroLanes ∧ s.phase = .absorb ∧ s.pos = 0 ∧ s.sq = 0 ∧ s.busy = false ∧ s.round = 0 ∧ s.pendCnt = 0 ∧
    s.err = false ∧ s.cause = 0 ∧ s.result = 0

/-- R200: while `rst = 1` the engine is held at its reset values. -/
abbrev State.HeldInReset (s : State) : Prop := s.rst = true → s.RegistersReset

/-- The sponge's bookkeeping: SQ is 0 in ABSORB phase (R135, R137, R138), and POS and PEND_CNT are 0 in SQUEEZE phase
(R136, R137). -/
abbrev State.PhaseBookkeeping (s : State) : Prop :=
  (s.phase = .absorb → s.sq = 0) ∧ (s.phase = .squeeze → s.pos = 0 ∧ s.pendCnt = 0)

/-- The machine's invariant: R37 with what makes it inductive, the parameters' range (R7), and `pc` within the host's list
(R31, R211). -/
abbrev State.Inv (s : State) : Prop :=
  s.FieldsInRange ∧ s.PendingAtBlockStart ∧ s.CauseProduced ∧ s.HeldInReset ∧ s.PhaseBookkeeping ∧
    s.params.wf = true ∧ s.pc ≤ s.program.length

/-! ### Command errors -/

/-- The cause of an accepted command, read off the checks of R76 in their order; `none` where it executes its rule. -/
def commandCause (laneAccess : Bool) (phase : Phase) (w : CmdWord) : Option Cause :=
  let opc := (w.extractLsb' 28 4).toNat
  let rsv := (w.extractLsb' 5 23).toNat
  let arg := (w.extractLsb' 0 5).toNat
  if opc ∉ [1, 2, 3, 4, 5, 6, 7] ∨ (opc ∈ [6, 7] ∧ laneAccess = false) then some .illegalOpcode
  else if rsv ≠ 0 ∨ (opc = 2 ∧ ¬(1 ≤ arg ∧ arg ≤ 8)) ∨ (opc ∈ [6, 7] ∧ ¬(arg ≤ 24)) ∨ (opc ∈ [1, 3, 4, 5] ∧ arg ≠ 0) then
    some .illegalField
  else if (opc ∈ [2, 3] ∧ phase ≠ .absorb) ∨ (opc = 4 ∧ phase ≠ .squeeze) then some .wrongPhase
  else none

/-- R181, code 1: OPC is `0x0` or `0x8`–`0xF`, or `0x6`/`0x7` with `LANE_ACCESS = 0`. -/
abbrev illegalOpcode (laneAccess : Bool) (w : CmdWord) : Prop :=
  w.extractLsb' 28 4 = 0 ∨ 8 ≤ (w.extractLsb' 28 4).toNat ∨
    ((w.extractLsb' 28 4 = 6 ∨ w.extractLsb' 28 4 = 7) ∧ laneAccess = false)

/-- R181, code 2: RSV is not 0, or ARG is outside the opcode's range (R73). -/
abbrev illegalField (w : CmdWord) : Prop :=
  w.extractLsb' 5 23 ≠ 0 ∨
    (w.extractLsb' 28 4 = 2 ∧ ((w.extractLsb' 0 5).toNat < 1 ∨ 8 < (w.extractLsb' 0 5).toNat)) ∨
    ((w.extractLsb' 28 4 = 6 ∨ w.extractLsb' 28 4 = 7) ∧ 24 < (w.extractLsb' 0 5).toNat) ∨
    ((w.extractLsb' 28 4 = 1 ∨ w.extractLsb' 28 4 = 3 ∨ w.extractLsb' 28 4 = 4 ∨ w.extractLsb' 28 4 = 5) ∧
      w.extractLsb' 0 5 ≠ 0)

/-- R181, code 3: ABSORB or FINAL in SQUEEZE phase, or SQUEEZE in ABSORB phase. -/
abbrev wrongPhase (phase : Phase) (w : CmdWord) : Prop :=
  ((w.extractLsb' 28 4 = 2 ∨ w.extractLsb' 28 4 = 3) ∧ phase = .squeeze) ∨ (w.extractLsb' 28 4 = 4 ∧ phase = .absorb)

/-- An instruction passes the checks of R76 in the state: its ARG is legal, the build has it, and the phase is its own. -/
def State.executes (s : State) : Instr → Bool
  | .init         => true
  | .absorb n _   => byteCountWf n && decide (s.phase = .absorb)
  | .final        => decide (s.phase = .absorb)
  | .squeeze      => decide (s.phase = .squeeze)
  | .permute      => true
  | .loadLane i _ => s.params.laneAccess && laneIndexWf i
  | .readLane i   => s.params.laneAccess && laneIndexWf i

/-! ### A step's command or reset -/

/-- The step of `s` accepts a command that executes instruction `i`: the host moves, offers it, and no check fails. -/
def State.stepExecutes (s : State) (i : Instr) : Prop :=
  ∃ c, s.currentAction = some (.command c) ∧ s.cmdReady = true ∧ decode s.params.laneAccess c = .ok i ∧
    s.executes i = true

/-- The step of `s` is the host's and asserts reset (R200). -/
def State.stepResets (s : State) : Prop :=
  s.nextAgent = some .host ∧ (s.currentAction = some .reset ∨ s.currentAction = some (.driveRst true))

/-- The step of `s` is the engine's (R109). -/
def State.stepIsEngine (s : State) : Prop := s.nextAgent = some .engine

/-! ### Rate and capacity -/

/-- Two lane files agree on the rate, lanes 0–16 (R22). -/
def sameRate (a b : Lanes) : Prop := ∀ i, i < rateLanes → lane a i = lane b i

/-- Two lane files agree on the capacity, lanes 17–24 (R22). -/
def sameCapacity (a b : Lanes) : Prop := ∀ i, rateLanes ≤ i → i < nLanes → lane a i = lane b i

/-! ### A digest's commands -/

/-- One ABSORB command of a split message: its byte count and its data operand. -/
abbrev Chunk := BitVec 5 × DataWord

/-- Every ABSORB of the split carries 1 to 8 bytes (R202). -/
def legalSplit (chunks : List Chunk) : Prop := ∀ c ∈ chunks, byteCountWf c.1 = true

/-- The message whose bytes, in order, the ABSORB commands carry (R139). -/
def splitMessage (chunks : List Chunk) : List Byte := chunks.flatMap fun c => messageBytes c.1.toNat c.2

/-- The ABSORB commands of the split. -/
def splitCommands (chunks : List Chunk) : List Instr := chunks.map fun c => .absorb c.1 c.2

/-- `k` steps of the machine. -/
abbrev runSteps (k : Nat) (s : State) : Host.Outcome State Fault Refusal := Sys2Proof.core.run k s

/-! ### The end of a host program -/

/-- `pc` equals the program's length and BUSY = 0 (R211). -/
abbrev State.Ended (s : State) : Prop := s.pc = s.program.length ∧ s.busy = false

end Sys2Proof.Machine
end

