-- ==== Sys2Proof/Certificates/Slice0/Obligations.lean ====
section
/-! DEFINITION. The statements about the model, each from a numbered rule of spec/ or derived from its rules. A statement
about one command gives its effect, its frame (every field not named in the record is the old one), the states in which it
completes, and the causes it raises. -/

open Sys2Proof Sys2Proof.Config Sys2Proof.Machine

/-! ### Encoding (30_encoding.md) -/

/-- R75, R80: decoding the encoding of a well-formed command gives the command back, with every operand at every value
its range admits, in every build that has the command. -/
def Obligations.DecodeOfEncodeIsTheInstr : Prop :=
  ∀ (la : Bool) (i : Instr), i.wf = true → (i.needsLaneAccess = true → la = true) → decode la (encode i) = .ok i

/-- R75: "Each row gives the only word pattern that selects the command". The words of each row, with the ARG ranges of
R73, and the lane commands only with LANE_ACCESS = 1; the match and mask columns: a word decodes to a command exactly where
the row with the command's mnemonic matches it with ARG in range (and, for a lane command, the build has it); and no word
matches two rows. -/
def Obligations.EachCommandHasItsWordsOnly : Prop :=
  (∀ (la : Bool) (w : CmdWord) (d : DataWord) (i : Instr),
    decode la ⟨w, d⟩ = .ok i ↔
      (i = .init ∧ w = 0x10000000) ∨
      (∃ n : BitVec 5, i = .absorb n d ∧ 1 ≤ n.toNat ∧ n.toNat ≤ 8 ∧ w = 0x20000000 + n.setWidth 32) ∨
      (i = .final ∧ w = 0x30000000) ∨
      (i = .squeeze ∧ w = 0x40000000) ∨
      (i = .permute ∧ w = 0x50000000) ∨
      (∃ k : BitVec 5, i = .loadLane k d ∧ la = true ∧ k.toNat ≤ 24 ∧ w = 0x60000000 + k.setWidth 32) ∨
      (∃ k : BitVec 5, i = .readLane k ∧ la = true ∧ k.toNat ≤ 24 ∧ w = 0x70000000 + k.setWidth 32)) ∧
  (∀ (la : Bool) (c : Command) (name : String),
    (∃ i, decode la c = .ok i ∧ i.mnemonic = name) ↔
      ∃ r ∈ opcodeTable, r.mnemonic = name ∧ r.matchesWord c.cmd = true ∧
        (name = "LOAD_LANE" ∨ name = "READ_LANE" → la = true)) ∧
  (∀ (w : CmdWord), ∀ r ∈ opcodeTable, ∀ q ∈ opcodeTable, r.matchesWord w = true → q.matchesWord w = true → r = q)

/-- R76: the checks of an accepted command in their order, the cause the first failing check gives, and otherwise the rule
of the command: the instruction whose word it is, with `n = arg` or `i = arg` and `data = cmd_data`. `commandCause` is R76's
pseudocode over the word's bits. -/
def Obligations.AcceptedCommandIsCheckedThenExecuted : Prop :=
  ∀ (c : Command) (s : State), s.cmdReady = true →
    (∀ k, commandCause s.params.laneAccess s.phase c.cmd = some k → runCommand c s = .next (s.raise k)) ∧
    (commandCause s.params.laneAccess s.phase c.cmd = none →
      ∃ i t, decode s.params.laneAccess c = .ok i ∧ s.executes i = true ∧ exec i s = .next t ∧
        runCommand c s = .next t ∧ (encode i).cmd = c.cmd ∧
        (∀ n d, i = .absorb n d → d = c.data) ∧ (∀ k d, i = .loadLane k d → d = c.data))

/-- R74: no value of DATA makes a command illegal; every command but ABSORB and LOAD_LANE ignores it; ABSORB reads its
bytes 0 to n-1 alone; LOAD_LANE reads all 64 bits. -/
def Obligations.DataIsReadByAbsorbAndLoadLaneAlone : Prop :=
  (∀ (la : Bool) (w : CmdWord) (d d' : DataWord),
    (∀ e, decode la ⟨w, d⟩ = .error e ↔ decode la ⟨w, d'⟩ = .error e) ∧
    (w.extractLsb' 28 4 ≠ 2 → w.extractLsb' 28 4 ≠ 6 → decode la ⟨w, d⟩ = decode la ⟨w, d'⟩)) ∧
  (∀ (n : BitVec 5) (d d' : DataWord) (s : State),
    (∀ t, t < n.toNat → d.extractLsb' (8 * t) 8 = d'.extractLsb' (8 * t) 8) →
      exec (.absorb n d) s = exec (.absorb n d') s) ∧
  (∀ (k : BitVec 5) (d : DataWord) (s : State), s.cmdReady = true → s.params.laneAccess = true → k.toNat ≤ 24 →
    ∃ t, exec (.loadLane k d) s = .next t ∧ lane t.lanes k.toNat = d)

/-- R82 and R75: words written out from the encoding decode to the commands they stand for. -/
def Obligations.WrittenWordsDecodeToTheirCommands : Prop :=
  decode true ⟨0x20000003, 0x0000000000636261⟩ = .ok (.absorb 3 0x636261) ∧
  decode true ⟨0x60000018, 0x18⟩ = .ok (.loadLane 24 0x18) ∧
  decode true ⟨0x70000010, 0⟩ = .ok (.readLane 16) ∧
  decode false ⟨0x10000000, 0⟩ = .ok .init ∧
  decode false ⟨0x30000000, 0⟩ = .ok .final ∧
  decode false ⟨0x40000000, 0⟩ = .ok .squeeze ∧
  decode false ⟨0x50000000, 0⟩ = .ok .permute ∧
  decode true ⟨0x00000000, 0⟩ = .error .illegalOpcode ∧
  decode false ⟨0x60000019, 0⟩ = .error .illegalOpcode ∧
  decode true ⟨0x20000023, 0⟩ = .error .illegalField

/-! ### State, ports, byte order (10_state.md, 20_memory.md) -/

/-- R36: the registers after reset in every build, STATUS there, and that `State.reset` is such a state. (The build of
`State.reset` is the model's choice, log entry 1; PEND's value is too, log entry 2, and is not stated.) -/
def Obligations.ResetValuesOfEveryRegister : Prop :=
  (∀ p : Params, (State.resetWith p).params = p ∧ (State.resetWith p).RegistersReset ∧
    (State.resetWith p).cmdReady = true ∧
    (State.resetWith p).statusWord = if p.laneAccess = true then 0x00000008 else 0x00000000) ∧
  ∃ p : Params, p.wf = true ∧ State.reset = State.resetWith p

/-- R34: every field of STATUS is computed from the state, and the reserved fields read 0. -/
def Obligations.StatusFieldsShowTheState : Prop :=
  ∀ s : State,
    s.statusWord.extractLsb' 0 1 = (if s.busy = true then 1 else 0) ∧
    s.statusWord.extractLsb' 1 1 = (if s.phase = .squeeze then 1 else 0) ∧
    s.statusWord.extractLsb' 2 1 = (if s.err = true then 1 else 0) ∧
    s.statusWord.extractLsb' 3 1 = (if s.params.laneAccess = true then 1 else 0) ∧
    s.statusWord.extractLsb' 4 3 = s.cause ∧
    s.statusWord.extractLsb' 7 1 = 0 ∧
    s.statusWord.extractLsb' 8 8 = s.pos ∧
    s.statusWord.extractLsb' 16 5 = s.sq ∧
    s.statusWord.extractLsb' 21 3 = 0 ∧
    s.statusWord.extractLsb' 24 5 = s.round ∧
    s.statusWord.extractLsb' 29 3 = s.pendCnt

/-- R50: the state-byte space is the lanes, little-endian: `SB(j)` is bits `[8*(j mod 8)+7 : 8*(j mod 8)]` of lane
`A[j div 8]`, and lane `i` holds bytes `8i … 8i+7` with byte `8i` least significant. -/
def Obligations.StateBytesAreTheLanesLittleEndian : Prop :=
  ∀ a : Lanes,
    (∀ j, j < 200 → ∀ k, k < 8 → (sb a j).getLsbD k = (lane a (j / 8)).getLsbD (8 * (j % 8) + k)) ∧
    (∀ i, i < 25 → memRead a (8 * i) 8 = (lane a i).toNat)

/-- R12: `MemWrite(j, n, v)` writes the bytes of `v` in order, the least significant at `SB(j)`, and no other byte;
`MemRead(j, n)` reads them back; `SB(j) ^= b` changes that byte alone. -/
def Obligations.StateBytesReadBackWhatIsWritten : Prop :=
  ∀ (a : Lanes) (j n v : Nat), j + n ≤ 200 →
    memRead (memWrite a j n v) j n = v % 256 ^ n ∧
    (∀ k, k < n → sb (memWrite a j n v) (j + k) = BitVec.ofNat 8 (v / 256 ^ k)) ∧
    (∀ k, k < 200 → (k < j ∨ j + n ≤ k) → sb (memWrite a j n v) k = sb a k) ∧
    (∀ k b, k < 200 → sb (xorSb a k b) k = sb a k ^^^ b ∧ ∀ k', k' < 200 → k' ≠ k → sb (xorSb a k b) k' = sb a k')

/-- R55: the lane-word ports carry a lane with no byte reordering: state byte `8i+t` is byte `t` of the word LOAD_LANE
writes, and of the word READ_LANE returns. -/
def Obligations.LaneWordsCarryStateBytesInOrder : Prop :=
  ∀ (s : State) (i : BitVec 5) (d : DataWord) (t : Nat), s.cmdReady = true → s.params.laneAccess = true →
    i.toNat ≤ 24 → t < 8 →
    (∃ u, exec (.loadLane i d) s = .next u ∧ sb u.lanes (8 * i.toNat + t) = d.extractLsb' (8 * t) 8) ∧
    (∃ u, exec (.readLane i) s = .next u ∧ u.result.extractLsb' (8 * t) 8 = sb s.lanes (8 * i.toNat + t))

/-! ### Invariants -/

/-- R36, R37: the invariant holds in the reset state of every build. -/
def Obligations.InvariantHoldsAtReset : Prop :=
  (∀ p : Params, p.wf = true → (State.resetWith p).Inv) ∧ State.reset.Inv

/-- R37 with the facts that make it inductive (R109, R181, R200, R7, R31): every step keeps the invariant, from every state
that meets it. -/
def Obligations.EveryStepKeepsTheInvariant : Prop :=
  ∀ s t : State, s.Inv → step s = .next t → t.Inv

/-! ### The permutation (40_permutation.md) -/

/-- R11, R111: `rotl` is the circular left rotation: bit `i` of the result is bit `(i - n) mod 64`; as a number it is the
formula of R11; by 0 it changes nothing. -/
def Obligations.RotlIsCircularLeftRotation : Prop :=
  ∀ (v : Lane) (n : Nat), n < 64 →
    (∀ i, i < 64 → (rotl v n).getLsbD i = v.getLsbD ((i + 64 - n) % 64)) ∧
    (rotl v n).toNat = (v.toNat * 2 ^ n ||| v.toNat / 2 ^ (64 - n)) % 2 ^ 64 ∧
    rotl v 0 = v

/-- R104: the rotation offsets, their values and the rule that generates them. -/
def Obligations.RotationOffsetsFollowTheWalk : Prop :=
  (∀ y, y < 5 → [rot 0 y, rot 1 y, rot 2 y, rot 3 y, rot 4 y] =
    [[0, 1, 62, 28, 27], [36, 44, 6, 55, 20], [3, 10, 43, 25, 39], [41, 45, 15, 21, 8], [18, 2, 61, 56, 14]].getD y []) ∧
  rot 0 0 = 0 ∧
  (∀ t, t < 24 → rot (walk t).1 (walk t).2 = (t + 1) * (t + 2) / 2 % 64) ∧
  (∀ x, x < 5 → ∀ y, y < 5 → rot x y < 64)

/-- R107: the round constants, and the LFSR rule: bit `2^j - 1` of `RC[ir]` is `rc(j + 7*ir)`, and every other bit is 0. -/
def Obligations.RoundConstantsFollowTheLfsr : Prop :=
  (rc 0 = 0x0000000000000001 ∧ rc 12 = 0x000000008000808B) ∧
  (rc 1 = 0x0000000000008082 ∧ rc 13 = 0x800000000000008B) ∧
  (rc 2 = 0x800000000000808A ∧ rc 14 = 0x8000000000008089) ∧
  (rc 3 = 0x8000000080008000 ∧ rc 15 = 0x8000000000008003) ∧
  (rc 4 = 0x000000000000808B ∧ rc 16 = 0x8000000000008002) ∧
  (rc 5 = 0x0000000080000001 ∧ rc 17 = 0x8000000000000080) ∧
  (rc 6 = 0x8000000080008081 ∧ rc 18 = 0x000000000000800A) ∧
  (rc 7 = 0x8000000000008009 ∧ rc 19 = 0x800000008000000A) ∧
  (rc 8 = 0x000000000000008A ∧ rc 20 = 0x8000000080008081) ∧
  (rc 9 = 0x0000000000000088 ∧ rc 21 = 0x8000000000008080) ∧
  (rc 10 = 0x0000000080008009 ∧ rc 22 = 0x0000000080000001) ∧
  (rc 11 = 0x000000008000000A ∧ rc 23 = 0x8000000080008008) ∧
  ∀ ir, ir < 24 →
    (∀ j, j < 7 → (rc ir).getLsbD (2 ^ j - 1) = lfsrBit (j + 7 * ir)) ∧
    (∀ b, b < 64 → b ∉ [0, 1, 3, 7, 15, 31, 63] → (rc ir).getLsbD b = false)

/-- R102: theta, every column parity read from the input state. -/
def Obligations.ThetaXorsTheColumnParities : Prop :=
  ∀ (a : Lanes) (c d : Nat → Lane),
    (∀ x, x < 5 → c x = lane a x ^^^ lane a (x + 5) ^^^ lane a (x + 10) ^^^ lane a (x + 15) ^^^ lane a (x + 20)) →
    (∀ x, x < 5 → d x = c ((x + 5 - 1) % 5) ^^^ rotl (c ((x + 1) % 5)) 1) →
    ∀ x y, x < 5 → y < 5 → lane (theta a) (x + 5 * y) = lane a (x + 5 * y) ^^^ d x

/-- R103: rho and pi together, and that every lane of the new buffer is written exactly once. -/
def Obligations.RhoPiRotatesAndMovesEveryLane : Prop :=
  (∀ (a : Lanes) (x y : Nat), x < 5 → y < 5 →
    lane (rhoPi a) (y + 5 * ((2 * x + 3 * y) % 5)) = rotl (lane a (x + 5 * y)) (rot x y)) ∧
  (∀ X, X < 5 → ∀ Y, Y < 5 → ∃ x, x < 5 ∧ ∃ y, y < 5 ∧ (y, (2 * x + 3 * y) % 5) = (X, Y) ∧
    ∀ x', x' < 5 → ∀ y', y' < 5 → (y', (2 * x' + 3 * y') % 5) = (X, Y) → x' = x ∧ y' = y)

/-- R105: chi, every term read from its input. -/
def Obligations.ChiCombinesTheRow : Prop :=
  ∀ (b : Lanes) (x y : Nat), x < 5 → y < 5 →
    lane (chi b) (x + 5 * y) =
      lane b (x + 5 * y) ^^^ (~~~(lane b ((x + 1) % 5 + 5 * y)) &&& lane b ((x + 2) % 5 + 5 * y))

/-- R106: iota changes lane 0 only. -/
def Obligations.IotaXorsTheConstantIntoLaneZero : Prop :=
  ∀ (a : Lanes) (ir : Nat), lane (iota a ir) 0 = lane a 0 ^^^ rc ir ∧
    ∀ i, 1 ≤ i → i < 25 → lane (iota a ir) i = lane a i

/-- R100, R101: KeccakF is rounds 0 to 23 in order, each theta, rho+pi, chi and iota in that order. -/
def Obligations.KeccakFIsTwentyFourRounds : Prop :=
  (∀ a : Lanes, keccakF a = (List.range 24).foldl rnd a) ∧
  (∀ (a : Lanes) (ir : Nat), rnd a ir = iota (chi (rhoPi (theta a))) ir)

/-- R109: the engine step: one round; after round 23 BUSY and ROUND are cleared, the pending bytes are XORed in at
`SB(POS) …`, POS moves past them and none is pending; nothing else is written. And the machine's step is the engine step
wherever the engine moves: with no host action enabled (none left, a held command, WAIT_IDLE), or beside a read or a reset where
the schedule gives the engine its turn, which uses that turn up (R20 leaves the order open; log entry 4). -/
def Obligations.EngineStepAppliesOneRound : Prop :=
  (∀ s : State, s.busy = true → s.rst = false →
    (s.hostEnabled = false → step s = .next (engineStep s)) ∧
    (s.hostEnabled = true → s.schedule.headD .engine = .engine →
      step s = .next (engineStep { s with schedule := s.schedule.tail }))) ∧
  (∀ s : State, s.nextAgent = some .engine → s.busy = true ∧ s.rst = false ∧ step s = .next (engineStep s.takeTurn)) ∧
  ∀ s : State, s.Inv → s.busy = true →
    (s.round.toNat ≠ 23 →
      engineStep s = { s with lanes := rnd s.lanes s.round.toNat, round := s.round + 1 }) ∧
    (s.round.toNat = 23 →
      engineStep s = { s with
        lanes := (engineStep s).lanes, busy := false, round := 0,
        pos := s.pos + s.pendCnt.setWidth 8, pendCnt := 0 } ∧
      ∀ j, j < 200 → sb (engineStep s).lanes j =
        if s.pos.toNat ≤ j ∧ j < s.pos.toNat + s.pendCnt.toNat
        then sb (rnd s.lanes 23) j ^^^ s.pend.getD (j - s.pos.toNat) 0
        else sb (rnd s.lanes 23) j)

/-- R109, R60: a permutation is exactly 24 engine steps: BUSY stays 1 through the first 23, ROUND counts them, and after the
24th BUSY is 0 and the lanes are KeccakF of those at the start with the pending bytes XORed in. -/
def Obligations.PermutationIsTwentyFourEngineSteps : Prop :=
  ∀ s : State, s.Inv → s.busy = true → s.round = 0 →
    (∀ k, k < 24 → (engineSteps k s).busy = true ∧ (engineSteps k s).round.toNat = k) ∧
    (engineSteps 24 s).busy = false ∧ (engineSteps 24 s).round = 0 ∧ (engineSteps 24 s).pendCnt = 0 ∧
    (engineSteps 24 s).pos.toNat = s.pos.toNat + s.pendCnt.toNat ∧
    (s.pendCnt = 0 → (engineSteps 24 s).lanes = keccakF s.lanes) ∧
    ∀ j, j < 200 → sb (engineSteps 24 s).lanes j =
      if s.pos.toNat ≤ j ∧ j < s.pos.toNat + s.pendCnt.toNat
      then sb (keccakF s.lanes) j ^^^ s.pend.getD (j - s.pos.toNat) 0
      else sb (keccakF s.lanes) j

/-- R110: PERMUTE, legal in both phases, starts a permutation and changes nothing else; word `0x50000000` with any DATA,
cause 2 for any other word of its opcode. -/
def Obligations.PermuteStartsAPermutation : Prop :=
  ∀ s : State, s.cmdReady = true →
    exec .permute s = .next { s with busy := true, round := 0 } ∧
    ∀ (w : CmdWord) (d : DataWord), w.extractLsb' 28 4 = 5 →
      runCommand ⟨w, d⟩ s =
        if w = 0x50000000 then .next { s with busy := true, round := 0 } else .next (s.raise .illegalField)

/-! ### The sponge commands (41_sponge.md) -/

/-- R135: INIT from any idle state, in both phases; cause 2 for any other word of its opcode. Nothing is said of PEND, which the
spec leaves as any value after INIT (U1; log entry 2). -/
def Obligations.InitClearsTheEngine : Prop :=
  ∀ s : State, s.cmdReady = true →
    (∃ t, exec .init s = .next t ∧ { t with pend := s.pend } = { s with
      lanes := zeroLanes, phase := .absorb, pos := 0, sq := 0, pendCnt := 0, err := false, cause := 0, result := 0 }) ∧
    ∀ (w : CmdWord) (d : DataWord), w.extractLsb' 28 4 = 1 →
      runCommand ⟨w, d⟩ s = if w = 0x10000000 then exec .init s else .next (s.raise .illegalField)

/-- R135, R201: INIT gives the same registers as reset, whatever the idle engine was in the middle of. -/
def Obligations.InitGivesTheResetRegisters : Prop :=
  ∀ s : State, s.Inv → s.cmdReady = true →
    ∃ t, exec .init s = .next t ∧ t.RegistersReset ∧ { t with pend := s.applyReset.pend } = s.applyReset

/-- R136 with R53: ABSORB. Its bytes are XORed in at POS from the least significant byte of DATA up; when the 136th byte of
the block is in, POS is 0, the bytes past it wait in PEND and a permutation starts. Nothing else changes, and no capacity
byte. Cause 2 for a byte count outside 1 to 8, before cause 3 in SQUEEZE phase. -/
def Obligations.AbsorbXorsItsBytesAtPos : Prop :=
  ∀ (s : State) (n : BitVec 5) (d : DataWord), s.pos.toNat < 136 → s.cmdReady = true →
    (1 ≤ n.toNat → n.toNat ≤ 8 → s.phase = .absorb →
      ∃ t, exec (.absorb n d) s = .next t ∧
        (∀ j, j < 200 → sb t.lanes j =
          if s.pos.toNat ≤ j ∧ j < s.pos.toNat + n.toNat ∧ j < 136
          then sb s.lanes j ^^^ d.extractLsb' (8 * (j - s.pos.toNat)) 8 else sb s.lanes j) ∧
        (s.pos.toNat + n.toNat < 136 →
          t = { s with lanes := t.lanes, pos := BitVec.ofNat 8 (s.pos.toNat + n.toNat) }) ∧
        (136 ≤ s.pos.toNat + n.toNat →
          t = { s with
            lanes := t.lanes, pos := 0, pend := t.pend,
            pendCnt := BitVec.ofNat 3 (s.pos.toNat + n.toNat - 136), busy := true, round := 0 } ∧
          ∀ k, k < 7 → t.pend.getD k 0 =
            if k < s.pos.toNat + n.toNat - 136 then d.extractLsb' (8 * (136 - s.pos.toNat + k)) 8
            else s.pend.getD k 0)) ∧
    (¬(1 ≤ n.toNat ∧ n.toNat ≤ 8) → exec (.absorb n d) s = .next (s.raise .illegalField)) ∧
    (1 ≤ n.toNat → n.toNat ≤ 8 → s.phase = .squeeze → exec (.absorb n d) s = .next (s.raise .wrongPhase))

/-- R137: FINAL. `0x01` into `SB(POS)` and `0x80` into `SB(135)` (both into `SB(135)`, as `0x81`, where POS is 135), the
phase is SQUEEZE, SQ and POS are 0, and a permutation starts; nothing else changes. Cause 2 for any other word of its
opcode, before cause 3 in SQUEEZE phase. -/
def Obligations.FinalPadsTheLastBlock : Prop :=
  ∀ s : State, s.pos.toNat < 136 → s.cmdReady = true →
    (s.phase = .absorb →
      ∃ t, exec .final s = .next t ∧
        t = { s with lanes := t.lanes, phase := .squeeze, sq := 0, pos := 0, busy := true, round := 0 } ∧
        ∀ j, j < 200 → sb t.lanes j =
          if j = 135 then (if s.pos.toNat = 135 then sb s.lanes j ^^^ 0x81 else sb s.lanes j ^^^ 0x80)
          else if j = s.pos.toNat then sb s.lanes j ^^^ 0x01 else sb s.lanes j) ∧
    (s.phase = .squeeze → exec .final s = .next (s.raise .wrongPhase)) ∧
    (∀ (w : CmdWord) (d : DataWord), w.extractLsb' 28 4 = 3 →
      runCommand ⟨w, d⟩ s = if w = 0x30000000 then exec .final s else .next (s.raise .illegalField))

/-- R138: SQUEEZE. RESULT is the lane SQ names and SQ moves on; after the 17th lane SQ is 0 and a permutation starts;
nothing else changes. Cause 2 for any other word of its opcode, before cause 3 in ABSORB phase. -/
def Obligations.SqueezeReturnsTheNextRateLane : Prop :=
  ∀ s : State, s.sq.toNat < 17 → s.cmdReady = true →
    (s.phase = .squeeze → s.sq.toNat < 16 →
      exec .squeeze s = .next { s with result := lane s.lanes s.sq.toNat, sq := s.sq + 1 }) ∧
    (s.phase = .squeeze → s.sq.toNat = 16 →
      exec .squeeze s = .next { s with result := lane s.lanes 16, sq := 0, busy := true, round := 0 }) ∧
    (s.phase = .absorb → exec .squeeze s = .next (s.raise .wrongPhase)) ∧
    (∀ (w : CmdWord) (d : DataWord), w.extractLsb' 28 4 = 4 →
      runCommand ⟨w, d⟩ s = if w = 0x40000000 then exec .squeeze s else .next (s.raise .illegalField))

/-! ### Lane access (42_lane_access.md) -/

/-- R160: LOAD_LANE writes the one lane named, in both phases, and changes nothing else; cause 1 where the build lacks it,
before cause 2 for a lane index past 24 or RSV not 0. -/
def Obligations.LoadLaneWritesOneLane : Prop :=
  ∀ (s : State) (i : BitVec 5) (d : DataWord), s.cmdReady = true →
    (s.params.laneAccess = true → i.toNat ≤ 24 →
      ∃ t, exec (.loadLane i d) s = .next t ∧ t = { s with lanes := t.lanes } ∧ lane t.lanes i.toNat = d ∧
        ∀ j, j ≠ i.toNat → lane t.lanes j = lane s.lanes j) ∧
    (s.params.laneAccess = false → exec (.loadLane i d) s = .next (s.raise .illegalOpcode)) ∧
    (s.params.laneAccess = true → 24 < i.toNat → exec (.loadLane i d) s = .next (s.raise .illegalField)) ∧
    (∀ w : CmdWord, w.extractLsb' 28 4 = 6 → w.extractLsb' 5 23 ≠ 0 →
      runCommand ⟨w, d⟩ s = .next (s.raise (if s.params.laneAccess = true then .illegalField else .illegalOpcode)))

/-- R161: READ_LANE copies the lane named to RESULT, in both phases, and changes nothing else (SQ does not advance and no
permutation starts); cause 1 where the build lacks it, before cause 2. -/
def Obligations.ReadLaneCopiesOneLane : Prop :=
  ∀ (s : State) (i : BitVec 5), s.cmdReady = true →
    (s.params.laneAccess = true → i.toNat ≤ 24 →
      exec (.readLane i) s = .next { s with result := lane s.lanes i.toNat }) ∧
    (s.params.laneAccess = false → exec (.readLane i) s = .next (s.raise .illegalOpcode)) ∧
    (s.params.laneAccess = true → 24 < i.toNat → exec (.readLane i) s = .next (s.raise .illegalField)) ∧
    (∀ (w : CmdWord) (d : DataWord), w.extractLsb' 28 4 = 7 → w.extractLsb' 5 23 ≠ 0 →
      runCommand ⟨w, d⟩ s = .next (s.raise (if s.params.laneAccess = true then .illegalField else .illegalOpcode)))

/-- R162: with LANE_ACCESS = 0 the opcodes 6 and 7 are illegal with no other effect; STATUS bit 3 is the parameter; and the
other commands behave the same in both builds. -/
def Obligations.LaneAccessOnlyGatesTheLaneCommands : Prop :=
  ∀ s : State,
    s.statusWord.getLsbD 3 = s.params.laneAccess ∧
    (∀ c : Command, s.cmdReady = true → s.params.laneAccess = false → c.cmd.extractLsb' 28 4 = 6 ∨ c.cmd.extractLsb' 28 4 = 7 →
      runCommand c s = .next (s.raise .illegalOpcode)) ∧
    (∀ (c : Command) (b : Bool), c.cmd.extractLsb' 28 4 ≠ 6 → c.cmd.extractLsb' 28 4 ≠ 7 →
      runCommand c { s with params := { s.params with laneAccess := b } } =
        mapNext (fun t => { t with params := { t.params with laneAccess := b } }) (runCommand c s))

/-- R22, R162: the sponge commands never move a capacity byte to or from the ports: two states that differ in the capacity
lanes alone give the same STATUS, RESULT and rate lanes, and the capacity stays as it is but for INIT's zeros. (The
permutation that a command starts runs in the engine's steps, not in the command.) -/
def Obligations.SpongeCommandsNeverMoveTheCapacity : Prop :=
  ∀ (s : State) (a : Lanes) (i : Instr), s.FieldsInRange → i.needsLaneAccess = false → sameRate a s.lanes →
    ∃ t u, exec i s = .next t ∧ exec i { s with lanes := a } = .next u ∧
      u = { t with lanes := u.lanes } ∧ sameRate u.lanes t.lanes ∧ u.statusWord = t.statusWord ∧ u.result = t.result ∧
      (sameCapacity t.lanes s.lanes ∨ (i = .init ∧ t.lanes = zeroLanes))

/-! ### Command errors (60_exceptions.md) -/

/-- R182: a command that raises is not executed: only ERR and CAUSE change, CAUSE keeping the first cause, and the engine goes
on accepting commands, each by its own rule whatever ERR is. -/
def Obligations.RaisingChangesOnlyTheErrorRecord : Prop :=
  ∀ (s : State) (c : Command), s.cmdReady = true →
    (∀ k, commandCause s.params.laneAccess s.phase c.cmd = some k →
      ∃ t, runCommand c s = .next t ∧ t.cmdReady = true ∧
        t = { s with
          err := true
          cause := if s.err = true then s.cause else match k with
            | .illegalOpcode => 1
            | .illegalField  => 2
            | .wrongPhase    => 3 }) ∧
    (commandCause s.params.laneAccess s.phase c.cmd = none → ∀ (e : Bool) (k : BitVec 3),
      decode s.params.laneAccess c ≠ .ok .init →
      runCommand c { s with err := e, cause := k } =
        mapNext (fun t => { t with err := e, cause := k }) (runCommand c s))

/-- R28, R182: ERR, once set, stays set and CAUSE keeps its code until INIT or reset clears both; and ERR is set by an accepted
command's error alone, CAUSE then holding that error's code. -/
def Obligations.ErrorStaysUntilInitOrReset : Prop :=
  ∀ s t : State, step s = .next t →
    (s.err = true → (t.err = true ∧ t.cause = s.cause) ∨
      (t.err = false ∧ t.cause = 0 ∧ (s.stepExecutes .init ∨ s.stepResets))) ∧
    (s.err = false → t.err = true →
      ∃ c k, s.currentAction = some (.command c) ∧ s.cmdReady = true ∧
        commandCause s.params.laneAccess s.phase c.cmd = some k ∧ t.cause = k.code)

/-- R183: a command reports the first cause that applies, in the order 1, 2, 3, for every word (the conditions are those of R181,
with the ARG ranges of R73); the earliest error's cause is kept; a command to which no cause applies reports none (INIT clears
the record). R183's example is `0x40000001` in ABSORB phase. -/
def Obligations.CausesHaveTheirPriority : Prop :=
  ∀ (s : State) (w : CmdWord) (d : DataWord), s.cmdReady = true →
    ∃ t, runCommand ⟨w, d⟩ s = .next t ∧
      (illegalOpcode s.params.laneAccess w → t.err = true ∧ t.cause = if s.err = true then s.cause else 1) ∧
      (¬ illegalOpcode s.params.laneAccess w → illegalField w →
        t.err = true ∧ t.cause = if s.err = true then s.cause else 2) ∧
      (¬ illegalOpcode s.params.laneAccess w → ¬ illegalField w → wrongPhase s.phase w →
        t.err = true ∧ t.cause = if s.err = true then s.cause else 3) ∧
      (¬ illegalOpcode s.params.laneAccess w → ¬ illegalField w → ¬ wrongPhase s.phase w →
        if w = 0x10000000 then t.err = false ∧ t.cause = 0 else t.err = s.err ∧ t.cause = s.cause) ∧
      (w = 0x40000001 → s.phase = .absorb → s.err = false → t.cause = 2)

/-! ### The host, the two agents and reset (10_state.md, 20_memory.md, 70_reset_and_hazards.md) -/

/-- R32, R76: a step in which the host offers a command and `cmd_ready = 1` is the execution of the decoded instruction at that
state, with `pc` moved on; a command that does not decode raises its cause, and `pc` moves on. -/
def Obligations.StepRunsTheDecodedInstr : Prop :=
  ∀ (s : State) (c : Command), s.currentAction = some (.command c) → s.cmdReady = true →
    (∀ i, decode s.params.laneAccess c = .ok i →
      (∀ t, exec i s = .next t → step s = .next { t with pc := t.pc + 1 }) ∧
      (∀ r, exec i s = .fault r → step s = .fault r) ∧
      (∀ r, exec i s = .refused r → step s = .refused r)) ∧
    (decode s.params.laneAccess c = .error .illegalOpcode →
      step s = .next { s.raise .illegalOpcode with pc := s.pc + 1 }) ∧
    (decode s.params.laneAccess c = .error .illegalField →
      step s = .next { s.raise .illegalField with pc := s.pc + 1 })

/-- `withFetchWord` places a word's command where the next step takes it (log entry 3; the model's own convention): the host
then offers that command, and nothing but its list of actions changes. -/
def Obligations.PlacedWordIsTheNextCommand : Prop :=
  ∀ (s : State) (nbits w : Nat),
    (s.withFetchWord nbits w).currentAction = some (.command (commandOfTableWord nbits w)) ∧
    { s.withFetchWord nbits w with program := s.program } = s ∧
    (∀ k, k < s.pc → k < s.program.length → (s.withFetchWord nbits w).program[k]? = s.program[k]?)

/-- R204: the busy hold. While BUSY = 1 no command is accepted and none has any effect; an offered command stays offered, the
steps are the engine's, and after the remaining rounds it can be accepted. Reads of STATUS and RESULT are never held. WAIT_IDLE is
a guard that holds `pc` while BUSY = 1 (R31), and lets it go where BUSY = 0 (that `pc` then moves on is DEDUCED, log entry 7).
(That `exec` on a held command answers the same state is DEDUCED, log entry 6.) -/
def Obligations.BusyHoldsTheOfferedCommand : Prop :=
  (∀ s : State, s.busy = false → s.currentAction = some .waitIdle → step s = .next { s with pc := s.pc + 1 }) ∧
  ∀ s : State, s.busy = true →
    (s.currentAction = some .waitIdle →
      s.hostEnabled = false ∧ ∀ t, step s = .next t → t.pc = s.pc ∧ (s.rst = false → t = engineStep s)) ∧
    s.cmdReady = false ∧ s.accepts = false ∧ (∀ i, exec i s = .next s) ∧ (∀ c, runCommand c s = .next s) ∧
    (∀ c, s.offered = some c → s.rst = false →
      step s = .next (engineStep s) ∧ (engineStep s).offered = some c ∧ (engineStep s).pc = s.pc) ∧
    (∀ c, s.offered = some c → s.rst = false → s.round.toNat < 24 →
      ∃ t, runSteps (24 - s.round.toNat) s = .next t ∧ t.cmdReady = true ∧ t.offered = some c ∧ t.pc = s.pc) ∧
    (s.currentAction = some .rdStatus ∨ s.currentAction = some .rdResult → s.hostEnabled = true)

/-- R209: progress, in every interleaving: from any state of the invariant with BUSY = 1 and `rst = 0`, whatever the host does
and whatever the schedule, BUSY is 0 within 24 steps more than the host has actions left. -/
def Obligations.EveryPermutationEnds : Prop :=
  ∀ s : State, s.Inv → s.busy = true → s.rst = false →
    ∃ k t, k ≤ 24 + (s.program.length - s.pc) ∧ runSteps k s = .next t ∧ t.busy = false

/-- R57: a read of STATUS or RESULT returns the port's value and has no side effect: only the host's own record and `pc` move
(and the interleaving's next choice is used up where the engine could have moved, log entry 4). -/
def Obligations.ReadsReturnThePortsAndChangeNothing : Prop :=
  ∀ s : State, s.nextAgent = some .host →
    (s.currentAction = some .rdStatus →
      ∃ l, step s = .next { s with pc := s.pc + 1, observed := s.observed ++ [.status s.statusWord], schedule := l }) ∧
    (s.currentAction = some .rdResult →
      ∃ l, step s = .next { s with pc := s.pc + 1, observed := s.observed ++ [.result s.result], schedule := l })

/-- R200: reset. It is enabled at every point, whatever the engine was doing; the step puts every register at its reset value;
while `rst = 1` no command is accepted, no engine step runs, and STATUS and RESULT show the reset values; when `rst` falls
to 0 the engine is idle in ABSORB phase and accepts commands. (That `pc` moves past a reset action is DEDUCED, log entry 7;
nothing is said of PEND, log entry 2.) -/
def Obligations.ResetHoldsTheEngineAtItsResetValues : Prop :=
  ∀ s : State,
    (s.currentAction = some .reset ∨ s.currentAction = some (.driveRst true) → s.hostEnabled = true) ∧
    (s.stepResets → ∃ t, step s = .next t ∧ t.RegistersReset ∧ t.params = s.params ∧ t.pc = s.pc + 1 ∧
      t.program = s.program ∧ t.observed = s.observed ∧ (t.rst = true ↔ s.currentAction = some (.driveRst true))) ∧
    (s.rst = true → s.cmdReady = false ∧ s.engineEnabled = false) ∧
    (s.rst = true → s.Inv →
      s.statusWord = (if s.params.laneAccess = true then 0x00000008 else 0x00000000) ∧ s.result = 0 ∧
      (s.currentAction = some (.driveRst false) →
        ∃ t, step s = .next t ∧ t.RegistersReset ∧ t.cmdReady = true))

/-- R193: with BUSY = 0 the engine is idle: a step with no host action left changes nothing, and any step keeps every
register of the engine unless it accepts a command or asserts reset. (That such a step answers the same state is DEDUCED, log
entry 6.) -/
def Obligations.IdleEngineChangesNothing : Prop :=
  ∀ s : State, s.busy = false →
    (s.currentAction = none → step s = .next s) ∧
    (∀ t, step s = .next t → s.accepts = false → ¬ s.stepResets →
      t = { s with pc := t.pc, observed := t.observed, rst := t.rst })

/-- R180, R184: nothing stops the machine: every step, and every instruction in every state, answers a next state. (That this holds
of a step where no agent may move, and of an instruction that is held, is DEDUCED, log entry 6.) -/
def Obligations.EveryStepAnswersANextState : Prop :=
  (∀ s : State, ∃ t, step s = .next t) ∧ (∀ (i : Instr) (s : State), ∃ t, exec i s = .next t) ∧
  (∀ (c : Command) (s : State), ∃ t, runCommand c s = .next t)

/-- R188, R7: the build parameters are no mode: no step changes them. -/
def Obligations.NoStepChangesTheBuildParameters : Prop :=
  ∀ s t : State, step s = .next t → t.params = s.params

/-- R31: `pc` moves by 1 when a command is accepted or a read is done, never otherwise but for the host's other actions
(WAIT_IDLE and the reset actions: DEDUCED, log entry 7), and never any other way; the host's list never changes. -/
def Obligations.PcMovesOnlyForward : Prop :=
  ∀ s t : State, step s = .next t →
    t.program = s.program ∧
    (s.nextAgent = some .host → t.pc = s.pc + 1) ∧
    (s.nextAgent ≠ some .host → t.pc = s.pc) ∧
    (s.accepts = true → s.nextAgent = some .host)

/-- R20: a command step and an engine step are never both enabled, so no command runs in the middle of a permutation. -/
def Obligations.NoCommandInsideAPermutation : Prop :=
  ∀ s : State, ¬(s.accepts = true ∧ s.engineEnabled = true) ∧
    (s.busy = true → s.rst = false → s.engineEnabled = true ∧ s.accepts = false) ∧
    (s.engineEnabled = true → s.busy = true)

/-! ### Who writes each register -/

/-- R21: the lanes are written by the rules of its table and no others, and ABSORB and FINAL write lanes 0–16 only. -/
def Obligations.LanesAreWrittenByTheirRulesOnly : Prop :=
  ∀ s t : State, s.pos.toNat < 136 → step s = .next t →
    (t.lanes ≠ s.lanes →
      s.stepIsEngine ∨ s.stepResets ∨ s.stepExecutes .init ∨ (∃ n d, s.stepExecutes (.absorb n d)) ∨
      s.stepExecutes .final ∨ (∃ i d, s.stepExecutes (.loadLane i d))) ∧
    ((∃ n d, s.stepExecutes (.absorb n d)) ∨ s.stepExecutes .final → sameCapacity t.lanes s.lanes) ∧
    (∀ i d, s.stepExecutes (.loadLane i d) → ∀ j, j ≠ i.toNat → lane t.lanes j = lane s.lanes j) ∧
    (s.stepExecutes .init ∨ s.stepResets → t.lanes = zeroLanes)

/-- R23: FINAL sets PHASE to SQUEEZE, INIT and reset set it to ABSORB, and no other step writes it; and in the step that accepts
it, an ABSORB or FINAL in SQUEEZE phase, or a SQUEEZE in ABSORB phase, raises cause 3 and is not executed. -/
def Obligations.PhaseIsSetByInitFinalAndReset : Prop :=
  ∀ s t : State, step s = .next t →
    (s.stepExecutes .final → t.phase = .squeeze) ∧
    (s.stepExecutes .init ∨ s.stepResets → t.phase = .absorb) ∧
    (t.phase ≠ s.phase → s.stepExecutes .final ∨ s.stepExecutes .init ∨ s.stepResets) ∧
    (∀ c i, s.currentAction = some (.command c) → s.cmdReady = true → decode s.params.laneAccess c = .ok i →
      (((∃ n d, i = .absorb n d) ∨ i = .final) ∧ s.phase = .squeeze) ∨ (i = .squeeze ∧ s.phase = .absorb) →
      t = { s.raise .wrongPhase with pc := s.pc + 1 })

/-- R24, R25: POS is written by INIT, ABSORB and FINAL, by the engine step that ends a permutation with pending bytes, and by
reset; SQ by INIT, FINAL, SQUEEZE and reset; both stay in their ranges. -/
def Obligations.PosAndSqAreWrittenByTheirRulesOnly : Prop :=
  ∀ s t : State, s.Inv → step s = .next t →
    (t.pos ≠ s.pos →
      s.stepExecutes .init ∨ (∃ n d, s.stepExecutes (.absorb n d)) ∨ s.stepExecutes .final ∨ s.stepResets ∨
      (s.stepIsEngine ∧ s.round.toNat = 23 ∧ s.pendCnt ≠ 0)) ∧
    (t.sq ≠ s.sq → s.stepExecutes .init ∨ s.stepExecutes .final ∨ s.stepExecutes .squeeze ∨ s.stepResets) ∧
    t.pos.toNat < 136 ∧ t.sq.toNat < 17

/-- R26: ABSORB (when it fills a block), FINAL, SQUEEZE (on its 17th lane) and PERMUTE start a permutation, with ROUND 0; no other
step sets BUSY; the engine step advances ROUND and clears BUSY after round 23; reset clears both. -/
def Obligations.BusyAndRoundFollowThePermutation : Prop :=
  ∀ s t : State, s.Inv → step s = .next t →
    (s.busy = false → t.busy = true → t.round = 0 ∧
      ((∃ n d, s.stepExecutes (.absorb n d) ∧ 136 ≤ s.pos.toNat + n.toNat) ∨ s.stepExecutes .final ∨
       (s.stepExecutes .squeeze ∧ s.sq.toNat = 16) ∨ s.stepExecutes .permute)) ∧
    (s.busy = true → t.busy = false → (s.stepIsEngine ∧ s.round.toNat = 23) ∨ s.stepResets) ∧
    (s.stepIsEngine → t.round.toNat = if s.round.toNat = 23 then 0 else s.round.toNat + 1) ∧
    (s.stepIsEngine → (t.busy = true ↔ s.round.toNat ≠ 23)) ∧
    (s.stepResets → t.busy = false ∧ t.round = 0) ∧
    ((∃ n d, s.stepExecutes (.absorb n d) ∧ 136 ≤ s.pos.toNat + n.toNat) ∨ s.stepExecutes .final ∨
       (s.stepExecutes .squeeze ∧ s.sq.toNat = 16) ∨ s.stepExecutes .permute → t.busy = true) ∧
    (t.busy = false → t.round = 0)

/-- R29: RESULT is the value the last SQUEEZE or READ_LANE produced; only they, INIT (to 0) and reset (to 0) write it. -/
def Obligations.ResultIsWrittenByItsRulesOnly : Prop :=
  ∀ s t : State, step s = .next t →
    (s.stepExecutes .squeeze → t.result = lane s.lanes s.sq.toNat) ∧
    (∀ i, s.stepExecutes (.readLane i) → t.result = lane s.lanes i.toNat) ∧
    (s.stepExecutes .init ∨ s.stepResets → t.result = 0) ∧
    (t.result ≠ s.result →
      s.stepExecutes .squeeze ∨ (∃ i, s.stepExecutes (.readLane i)) ∨ s.stepExecutes .init ∨ s.stepResets)

/-- R191: instances share nothing: a step of one leaves every other as it is. (A platform as a list of states stepped one at a time,
in which an absent instance moves nothing, is DEDUCED, log entry 13.) -/
def Obligations.InstancesShareNothing : Prop :=
  ∀ (p : List State) (k : Nat),
    ∃ q, platformStep k p = .next q ∧ q.length = p.length ∧ (∀ j, j ≠ k → q[j]? = p[j]?) ∧
      ∀ s, p[k]? = some s → ∃ t, step s = .next t ∧ q[k]? = some t

/-! ### The function (41_sponge.md) -/

/-- R131: the padding always ends a block, and the three cases of the last block (where the message fills its blocks the first
form is a block of padding alone); R134: one permutation for each block. -/
def Obligations.PaddingEndsTheBlock : Prop :=
  ∀ m : List Byte,
    (padMessage m).length = 136 * (m.length / 136 + 1) ∧ permutationCount m = m.length / 136 + 1 ∧
    (m.length % 136 ≤ 134 →
      padMessage m = m ++ [0x01] ++ List.replicate (134 - m.length % 136) 0x00 ++ [0x80]) ∧
    (m.length % 136 = 135 → padMessage m = m ++ [0x81])

/-- R130: the output is exactly 32 bytes; R133: it is `SB(0) … SB(31)` of the state after the last absorbed block, with no
further permutation; and a longer output begins with it. -/
def Obligations.DigestIsTheFirstThirtyTwoBytes : Prop :=
  (∀ m : List Byte, (keccak256 m).length = 32 ∧ keccak256 m = (List.range 32).map (sb (absorbedState m))) ∧
  (∀ (a : Lanes) (o : Nat), (squeezeOutput a o).length = o ∧
    (∀ p, p ≤ o → (squeezeOutput a o).take p = squeezeOutput a p) ∧
    squeezeOutput a (136 + o) = (List.range 136).map (sb a) ++ squeezeOutput (keccakF a) o)

/-- R132: XORing a block's bytes into the state is XORing its seventeen little-endian 8-byte words into lanes 0 to 16; the
capacity lanes are not XORed. -/
def Obligations.BlockBytesAreSeventeenLittleEndianWords : Prop :=
  ∀ (a : Lanes) (block : List Byte), block.length = 136 →
    xorBytes a 0 block = xorBlockWords a block ∧ sameCapacity (xorBytes a 0 block) a

/-- R81: ABSORB_BYTES m is a split of `m` into ABSORB commands of 1 to 8 bytes, `ceil(L/8)` of them. -/
def Obligations.AbsorbBytesCarriesTheMessage : Prop :=
  ∀ m : List Byte, ∃ chunks : List Chunk, legalSplit chunks ∧ absorbBytes m = splitCommands chunks ∧
    splitMessage chunks = m ∧ (absorbBytes m).length = (m.length + 7) / 8

/-- R139: INIT, ABSORB commands that carry `m` in any split, FINAL and `4·j` SQUEEZEs, each followed by a read of RESULT, from any
state with BUSY = 0 and `rst = 0`, in every interleaving of the host's reads with the engine's steps: the run comes to the end
of the sequence with ERR = 0, and the RESULT values read are the first `8·4·j` output bytes of the sponge for `m`; for `j = 1`
they are `keccak256(m)`. -/
def Obligations.CommandSequenceComputesTheSponge : Prop :=
  ∀ (s : State) (chunks : List Chunk) (j : Nat) (after : List HostAction),
    s.busy = false → s.rst = false → legalSplit chunks →
    s.program.drop s.pc = digestProgram (splitCommands chunks) (4 * j) ++ after →
    ∃ k t results, runSteps k s = .next t ∧
      t.pc = s.pc + (digestProgram (splitCommands chunks) (4 * j)).length ∧ t.program = s.program ∧
      t.err = false ∧ t.observed = s.observed ++ results.map Observation.result ∧ results.length = 4 * j ∧
      resultBytes results = squeezeOutput (absorbedState (splitMessage chunks)) (32 * j) ∧
      (j = 1 → resultBytes results = keccak256 (splitMessage chunks))
end

