-- ==== Sys2Proof/Laws/Decode.lean ====
section
/-! SUPPORT. The fields of a command word: what the decoder reads from a word the encoder writes, and the word from its
fields. -/

namespace Sys2Proof

/-- The bits of an encoded word. -/
theorem commandWord_getLsbD (o : BitVec 4) (a : BitVec 5) (k : Nat) :
    (commandWord o a).getLsbD k = if k < 5 then a.getLsbD k else if k - 5 < 23 then false else o.getLsbD (k - 5 - 23) := by
  show BitVec.getLsbD (w := 4 + 23 + 5) (o ++ (0 : BitVec 23) ++ a) k = _
  rw [BitVec.getLsbD_append, BitVec.getLsbD_append]
  simp

@[simp] theorem opcField_commandWord (o : BitVec 4) (a : BitVec 5) : opcField (commandWord o a) = o := by
  apply BitVec.eq_of_getLsbD_eq
  intro k hk
  have h1 : ¬ 28 + k < 5 := by omega
  have h2 : ¬ 28 + k - 5 < 23 := by omega
  have h3 : 28 + k - 5 - 23 = k := by omega
  simp only [opcField, BitVec.getLsbD_extractLsb', commandWord_getLsbD, hk, h1, h2, h3, decide_true, Bool.true_and, if_false]

@[simp] theorem rsvField_commandWord (o : BitVec 4) (a : BitVec 5) : rsvField (commandWord o a) = 0 := by
  apply BitVec.eq_of_getLsbD_eq
  intro k hk
  have h1 : ¬ 5 + k < 5 := by omega
  have h2 : 5 + k - 5 < 23 := by omega
  simp [rsvField, commandWord_getLsbD, hk]

@[simp] theorem argField_commandWord (o : BitVec 4) (a : BitVec 5) : argField (commandWord o a) = a := by
  apply BitVec.eq_of_getLsbD_eq
  intro k hk
  simp [argField, commandWord_getLsbD, hk]

/-- A word with RSV = 0 is the word of its OPC and ARG (R70). -/
theorem commandWord_of_fields (w : CmdWord) (h : rsvField w = 0) : commandWord (opcField w) (argField w) = w := by
  apply BitVec.eq_of_getLsbD_eq
  intro k hk
  rw [commandWord_getLsbD]
  by_cases h1 : k < 5
  · simp [h1, argField]
  · by_cases h2 : k - 5 < 23
    · have h3 := congrArg (fun v => v.getLsbD (k - 5)) h
      have h4 : 5 + (k - 5) = k := by omega
      simp only [rsvField, BitVec.getLsbD_extractLsb', h2, h4, decide_true, Bool.true_and] at h3
      simp only [h1, h2, if_true, if_false]
      rw [h3]
      exact BitVec.getLsbD_zero.symm
    · have h3 : k - 5 - 23 < 4 := by omega
      have h4 : 28 + (k - 5 - 23) = k := by omega
      simp [h1, h2, h3, h4, opcField]

/-- OPC as a number: the word over `2^28`. -/
theorem opcField_toNat (w : CmdWord) : (opcField w).toNat = w.toNat / 2 ^ 28 := by
  have := w.isLt
  simp only [opcField, BitVec.extractLsb'_toNat, Nat.shiftRight_eq_div_pow]
  omega

/-- RSV as a number. -/
theorem rsvField_toNat (w : CmdWord) : (rsvField w).toNat = w.toNat / 32 % 2 ^ 23 := by
  simp [rsvField, BitVec.extractLsb'_toNat, Nat.shiftRight_eq_div_pow]

/-- ARG as a number. -/
theorem argField_toNat (w : CmdWord) : (argField w).toNat = w.toNat % 32 := by
  simp [argField, BitVec.extractLsb'_toNat]

/-- The word of an OPC and an ARG as a number: OPC at bit 28 and ARG at bit 0. -/
theorem commandWord_toNat (o : BitVec 4) (a : BitVec 5) : (commandWord o a).toNat = o.toNat * 2 ^ 28 + a.toNat := by
  have h1 := opcField_toNat (commandWord o a)
  have h2 := rsvField_toNat (commandWord o a)
  have h3 := argField_toNat (commandWord o a)
  rw [opcField_commandWord] at h1
  rw [rsvField_commandWord] at h2
  rw [argField_commandWord] at h3
  have h4 : ((0 : BitVec 23)).toNat = 0 := rfl
  rw [h4] at h2
  have := (commandWord o a).isLt
  omega

/-! ### The decoder -/

/-- A word that decodes names the instruction by its OPC, with RSV = 0 and ARG in range (R76). -/
theorem decode_ok {la : Bool} {c : Command} {i : Instr} (h : decode la c = .ok i) :
    selectOpcode la (opcField c.cmd) (argField c.cmd) c.data = some i ∧ rsvField c.cmd = 0 ∧
      argLegal (opcField c.cmd) (argField c.cmd) = true := by
  unfold decode at h
  split at h
  · cases h
  · split at h
    · rename_i hs hc
      cases h
      exact ⟨hs, hc.1, hc.2⟩
    · cases h

/-- A word made of a legal OPC and ARG decodes (R75). -/
theorem decode_of_word {la : Bool} {o a d i} (hs : selectOpcode la o a d = some i) (ha : argLegal o a = true) :
   decode la ⟨commandWord o a, d⟩ = .ok i := by
  simp [decode, hs, ha]

/-- The sixteen opcodes: the seven of R75 and the illegal ones. -/
theorem opcode_cases : ∀ o : BitVec 4, o = 0 ∨ o = 1 ∨ o = 2 ∨ o = 3 ∨ o = 4 ∨ o = 5 ∨ o = 6 ∨ o = 7 ∨ 8 ≤ o.toNat := by decide

/-! ### The words of R75 -/

theorem commandWord_init : commandWord 1 0 = 0x10000000 := by decide
theorem commandWord_absorb : ∀ n, commandWord 2 n = 0x20000000 + n.setWidth 32 := by decide +kernel
theorem commandWord_final : commandWord 3 0 = 0x30000000 := by decide
theorem commandWord_squeeze : commandWord 4 0 = 0x40000000 := by decide
theorem commandWord_permute : commandWord 5 0 = 0x50000000 := by decide
theorem commandWord_loadLane : ∀ n, commandWord 6 n = 0x60000000 + n.setWidth 32 := by decide +kernel
theorem commandWord_readLane : ∀ n, commandWord 7 n = 0x70000000 + n.setWidth 32 := by decide +kernel

end Sys2Proof
end

