-- ==== Sys2Proof/Laws/Lanes.lean ====
section
/-! SUPPORT. Lanes and state bytes: what a read gives after a write, once for each operation of Machine/Ops.lean. -/

namespace Sys2Proof.Machine

/-! ### Lanes -/

theorem lane_eq_getElem (a : Lanes) {i : Nat} (h : i < 25) : lane a i = a[i] := by
  simp [lane, Vector.getD, h]

theorem lane_of_ge (a : Lanes) {i : Nat} (h : 25 ≤ i) : lane a i = 0 := by
  simp [lane, Vector.getD, h]

/-- Two lane files with the same 25 lanes are the same. -/
theorem lanes_ext {a b : Lanes} (h : ∀ i, i < 25 → lane a i = lane b i) : a = b := by
  apply Vector.ext
  intro i hi
  rw [← lane_eq_getElem a hi, ← lane_eq_getElem b hi, h i hi]

/-- A lane file built lane by lane. -/
theorem lane_ofFn (f : Fin 25 → Lane) {i : Nat} (h : i < 25) : lane (Vector.ofFn f) i = f ⟨i, h⟩ := by
  rw [lane_eq_getElem _ h, Vector.getElem_ofFn]

theorem lane_setLane (a : Lanes) (i j : Nat) (v : Lane) (hj : j < 25) :
    lane (setLane a i v) j = if i = j then v else lane a j := by
  simp only [lane_eq_getElem _ hj, setLane, Vector.getElem_setIfInBounds]

theorem lane_setLane_same (a : Lanes) {i : Nat} (v : Lane) (h : i < 25) : lane (setLane a i v) i = v := by
  simp [lane_setLane a i i v h]

theorem lane_setLane_ne (a : Lanes) {i j : Nat} (v : Lane) (h : i ≠ j) : lane (setLane a i v) j = lane a j := by
  by_cases hj : j < 25
  · rw [lane_setLane a i j v hj, if_neg h]
  · rw [lane_of_ge _ (by omega), lane_of_ge _ (by omega)]

theorem setLane_lane (a : Lanes) (i : Nat) : setLane a i (lane a i) = a := by
  apply lanes_ext
  intro j hj
  rw [lane_setLane a i j _ hj]
  split <;> simp_all

theorem setLane_setLane (a : Lanes) (i : Nat) (v w : Lane) : setLane (setLane a i v) i w = setLane a i w := by
  apply lanes_ext
  intro j hj
  simp only [lane_setLane _ _ j _ hj]
  split <;> rfl

@[simp] theorem lane_zeroLanes (i : Nat) : lane zeroLanes i = 0 := by
  by_cases h : i < 25
  · rw [lane_eq_getElem _ h]; simp [zeroLanes]
  · exact lane_of_ge _ (by omega)

/-! ### Bytes of a word -/

theorem wordByte_getLsbD (v : BitVec 64) (t k : Nat) :
    (wordByte v t).getLsbD k = (decide (k < 8) && v.getLsbD (8 * t + k)) := by
  simp [wordByte]

theorem wordByte_toNat (v : BitVec 64) (t : Nat) : (wordByte v t).toNat = v.toNat / 2 ^ (8 * t) % 256 := by
  simp [wordByte, BitVec.extractLsb'_toNat, Nat.shiftRight_eq_div_pow]

theorem replaceByte_getLsbD (v : Lane) (t : Nat) (b : Byte) {k : Nat} (hk : k < 64) :
    (replaceByte v t b).getLsbD k = if k / 8 = t then b.getLsbD (k % 8) else v.getLsbD k := by
  have h0 : (0xFF : Lane) = BitVec.setWidth 64 (BitVec.allOnes 8) := by decide
  simp only [replaceByte, h0, BitVec.getLsbD_or, BitVec.getLsbD_and, BitVec.getLsbD_not, BitVec.getLsbD_shiftLeft,
    BitVec.getLsbD_setWidth, BitVec.getLsbD_allOnes]
  by_cases h : k / 8 = t
  · have e : k - 8 * t = k % 8 := by omega
    have h1 : ¬ k < 8 * t := by omega
    have h2 : k % 8 < 8 := by omega
    have h3 : k % 8 < 64 := by omega
    simp [h, e, hk, h1, h2, h3]
  · have h1 : k < 8 * t ∨ 8 ≤ k - 8 * t := by omega
    rcases h1 with h1 | h1
    · simp [h, hk, h1]
    · have h2 : ¬ (k - 8 * t < 8) := by omega
      have h3 : b.getLsbD (k - 8 * t) = false := BitVec.getLsbD_of_ge b _ h1
      simp [h, hk, h2, h3]

theorem wordByte_replaceByte (v : Lane) (t u : Nat) (b : Byte) (hu : u < 8) :
    wordByte (replaceByte v t b) u = if t = u then b else wordByte v u := by
  apply BitVec.eq_of_getLsbD_eq
  intro k hk
  rw [wordByte_getLsbD, replaceByte_getLsbD v t b (by omega)]
  have h1 : (8 * u + k) / 8 = u := by omega
  have h2 : (8 * u + k) % 8 = k := by omega
  rw [h1, h2]
  by_cases h : t = u
  · simp [h, hk]
  · have h' : ¬ u = t := fun e => h e.symm
    simp [h, h', wordByte_getLsbD]

/-- A lane word is its eight bytes. -/
theorem word_ext_of_bytes {v w : BitVec 64} (h : ∀ t, t < 8 → wordByte v t = wordByte w t) : v = w := by
  apply BitVec.eq_of_getLsbD_eq
  intro k hk
  have h1 := congrArg (fun b => b.getLsbD (k % 8)) (h (k / 8) (by omega))
  have h2 : 8 * (k / 8) + k % 8 = k := by omega
  have h3 : k % 8 < 8 := by omega
  simp only [wordByte_getLsbD, h2, h3, decide_true, Bool.true_and] at h1
  exact h1

/-! ### State bytes -/

theorem sb_setSb (a : Lanes) (i j : Nat) (b : Byte) (hj : j < 200) :
    sb (setSb a i b) j = if i = j then b else sb a j := by
  unfold sb setSb
  by_cases h : i / 8 = j / 8
  · rw [h, lane_setLane_same a _ (by omega), wordByte_replaceByte _ _ _ _ (by omega)]
    by_cases hij : i = j
    · simp [hij]
    · have : ¬ i % 8 = j % 8 := by omega
      simp [hij, this]
  · rw [lane_setLane_ne a _ h]
    have : ¬ i = j := fun e => h (by rw [e])
    simp [this]

theorem sb_xorSb (a : Lanes) (i j : Nat) (b : Byte) (hj : j < 200) :
    sb (xorSb a i b) j = if i = j then sb a j ^^^ b else sb a j := by
  unfold xorSb
  rw [sb_setSb a i j _ hj]
  split <;> simp_all

theorem lane_setSb_ne (a : Lanes) (i : Nat) (b : Byte) {k : Nat} (h : i / 8 ≠ k) : lane (setSb a i b) k = lane a k :=
  lane_setLane_ne a _ h

theorem lane_xorSb_ne (a : Lanes) (i : Nat) (b : Byte) {k : Nat} (h : i / 8 ≠ k) : lane (xorSb a i b) k = lane a k :=
  lane_setSb_ne a i _ h

/-- Two lane files with the same 200 state bytes are the same: the bytes and the lanes are views of the same bits (R51). -/
theorem lanes_ext_of_bytes {a b : Lanes} (h : ∀ j, j < 200 → sb a j = sb b j) : a = b := by
  apply lanes_ext
  intro i hi
  apply word_ext_of_bytes
  intro t ht
  have := h (8 * i + t) (by omega)
  unfold sb at this
  have h1 : (8 * i + t) / 8 = i := by omega
  have h2 : (8 * i + t) % 8 = t := by omega
  rwa [h1, h2] at this

/-! ### XORing bytes in order -/

theorem sb_xorBytes (bs : List Byte) (a : Lanes) (i j : Nat) (hj : j < 200) :
    sb (xorBytes a i bs) j = if i ≤ j ∧ j < i + bs.length then sb a j ^^^ bs.getD (j - i) 0 else sb a j := by
  induction bs generalizing a i with
  | nil =>
    have : ¬ (i ≤ j ∧ j < i + 0) := by omega
    simp only [xorBytes, List.length_nil, if_neg this]
  | cons b bs ih =>
    rw [xorBytes, ih, sb_xorSb _ _ _ _ hj, List.length_cons]
    by_cases h1 : i = j
    · have h2 : ¬ (i + 1 ≤ j ∧ j < i + 1 + bs.length) := by omega
      have h3 : i ≤ j ∧ j < i + (bs.length + 1) := by omega
      have h4 : j - i = 0 := by omega
      rw [if_neg h2, if_pos h1, if_pos h3, h4]
      simp
    · by_cases h2 : i + 1 ≤ j ∧ j < i + 1 + bs.length
      · have h3 : i ≤ j ∧ j < i + (bs.length + 1) := by omega
        have h4 : j - i = (j - (i + 1)) + 1 := by omega
        rw [if_pos h2, if_neg h1, if_pos h3, h4]
        simp
      · have h3 : ¬ (i ≤ j ∧ j < i + (bs.length + 1)) := by omega
        rw [if_neg h2, if_neg h1, if_neg h3]

theorem xorBytes_append (bs cs : List Byte) (a : Lanes) (i : Nat) :
    xorBytes a i (bs ++ cs) = xorBytes (xorBytes a i bs) (i + bs.length) cs := by
  induction bs generalizing a i with
  | nil => simp [xorBytes]
  | cons b bs ih => simp [xorBytes, ih, Nat.add_assoc, Nat.add_comm 1]

theorem xorSb_zero (a : Lanes) (i : Nat) : xorSb a i 0 = a := by
  apply lanes_ext_of_bytes
  intro j hj
  rw [sb_xorSb _ _ _ _ hj]
  split <;> simp

theorem xorBytes_zeros (n : Nat) (a : Lanes) (i : Nat) : xorBytes a i (List.replicate n 0) = a := by
  induction n generalizing a i with
  | zero => rfl
  | succ n ih => rw [List.replicate_succ, xorBytes, xorSb_zero, ih]

theorem xorSb_xorSb_same (a : Lanes) (i : Nat) (b c : Byte) : xorSb (xorSb a i b) i c = xorSb a i (b ^^^ c) := by
  apply lanes_ext_of_bytes
  intro j hj
  simp only [sb_xorSb _ _ _ _ hj]
  split
  · exact BitVec.xor_assoc _ _ _
  · rfl

/-- Bytes XORed below position `n` leave every lane from `n/8` on (rounded up) as it was. -/
theorem lane_xorBytes_of_le (bs : List Byte) (a : Lanes) (i k : Nat) (h : i + bs.length ≤ 8 * k) :
    lane (xorBytes a i bs) k = lane a k := by
  induction bs generalizing a i with
  | nil => rfl
  | cons b bs ih =>
    rw [List.length_cons] at h
    rw [xorBytes, ih _ _ (by omega), lane_xorSb_ne _ _ _ (by omega)]

/-- XORing bytes into a state depends, lane by lane, only on that lane. -/
theorem lane_xorSb_congr (a b : Lanes) (i k : Nat) (c : Byte) (hk : k < 25) (h : lane a k = lane b k) :
    lane (xorSb a i c) k = lane (xorSb b i c) k := by
  by_cases hi : i / 8 = k
  · unfold xorSb setSb sb
    rw [hi, lane_setLane_same _ _ hk, lane_setLane_same _ _ hk, h]
  · rw [lane_xorSb_ne _ _ _ hi, lane_xorSb_ne _ _ _ hi, h]

theorem lane_xorBytes_congr (bs : List Byte) (a b : Lanes) (i k : Nat) (hk : k < 25) (h : lane a k = lane b k) :
    lane (xorBytes a i bs) k = lane (xorBytes b i bs) k := by
  induction bs generalizing a b i with
  | nil => exact h
  | cons c bs ih => exact ih _ _ _ (lane_xorSb_congr a b i k c hk h)

/-! ### MemRead and MemWrite -/

theorem sb_memWrite (n : Nat) (a : Lanes) (i v j : Nat) (hj : j < 200) :
    sb (memWrite a i n v) j = if i ≤ j ∧ j < i + n then BitVec.ofNat 8 (v / 256 ^ (j - i)) else sb a j := by
  induction n generalizing a i v with
  | zero =>
    have : ¬ (i ≤ j ∧ j < i + 0) := by omega
    rw [memWrite, if_neg this]
  | succ n ih =>
    rw [memWrite, ih, sb_setSb _ _ _ _ hj]
    by_cases h1 : i = j
    · have h2 : ¬ (i + 1 ≤ j ∧ j < i + 1 + n) := by omega
      have h3 : i ≤ j ∧ j < i + (n + 1) := by omega
      have h4 : j - i = 0 := by omega
      rw [if_neg h2, if_pos h1, if_pos h3, h4]
      simp
    · by_cases h2 : i + 1 ≤ j ∧ j < i + 1 + n
      · have h3 : i ≤ j ∧ j < i + (n + 1) := by omega
        have h4 : j - i = (j - (i + 1)) + 1 := by omega
        rw [if_pos h2, if_pos h3, h4, Nat.pow_succ, Nat.mul_comm, Nat.div_div_eq_div_mul]
      · have h3 : ¬ (i ≤ j ∧ j < i + (n + 1)) := by omega
        rw [if_neg h2, if_neg h1, if_neg h3]

/-- MemRead depends on the bytes it names alone. -/
theorem memRead_congr (n : Nat) (a b : Lanes) (j : Nat) (h : ∀ k, j ≤ k → k < j + n → sb a k = sb b k) :
    memRead a j n = memRead b j n := by
  induction n generalizing j with
  | zero => rfl
  | succ n ih =>
    rw [memRead, memRead, h j (by omega) (by omega), ih (j + 1) fun k h1 h2 => h k (by omega) (by omega)]

end Sys2Proof.Machine
end

