-- ==== Sys2Proof/Laws/State.lean ====
section
/-! SUPPORT. The machine's named updates, one lemma per field per update, so that no proof unfolds a record update. -/

namespace Sys2Proof.Machine

variable (s : State)

/-! ### setLanes -/

@[simp] theorem State.setLanes_params (a : Lanes) : (s.setLanes a).params = s.params := rfl
@[simp] theorem State.setLanes_lanes (a : Lanes) : (s.setLanes a).lanes = a := rfl
@[simp] theorem State.setLanes_phase (a : Lanes) : (s.setLanes a).phase = s.phase := rfl
@[simp] theorem State.setLanes_pos (a : Lanes) : (s.setLanes a).pos = s.pos := rfl
@[simp] theorem State.setLanes_sq (a : Lanes) : (s.setLanes a).sq = s.sq := rfl
@[simp] theorem State.setLanes_busy (a : Lanes) : (s.setLanes a).busy = s.busy := rfl
@[simp] theorem State.setLanes_round (a : Lanes) : (s.setLanes a).round = s.round := rfl
@[simp] theorem State.setLanes_pendCnt (a : Lanes) : (s.setLanes a).pendCnt = s.pendCnt := rfl
@[simp] theorem State.setLanes_pend (a : Lanes) : (s.setLanes a).pend = s.pend := rfl
@[simp] theorem State.setLanes_err (a : Lanes) : (s.setLanes a).err = s.err := rfl
@[simp] theorem State.setLanes_cause (a : Lanes) : (s.setLanes a).cause = s.cause := rfl
@[simp] theorem State.setLanes_result (a : Lanes) : (s.setLanes a).result = s.result := rfl
@[simp] theorem State.setLanes_rst (a : Lanes) : (s.setLanes a).rst = s.rst := rfl
@[simp] theorem State.setLanes_program (a : Lanes) : (s.setLanes a).program = s.program := rfl
@[simp] theorem State.setLanes_pc (a : Lanes) : (s.setLanes a).pc = s.pc := rfl
@[simp] theorem State.setLanes_observed (a : Lanes) : (s.setLanes a).observed = s.observed := rfl
@[simp] theorem State.setLanes_schedule (a : Lanes) : (s.setLanes a).schedule = s.schedule := rfl

/-! ### setPhase -/

@[simp] theorem State.setPhase_params (p : Phase) : (s.setPhase p).params = s.params := rfl
@[simp] theorem State.setPhase_lanes (p : Phase) : (s.setPhase p).lanes = s.lanes := rfl
@[simp] theorem State.setPhase_phase (p : Phase) : (s.setPhase p).phase = p := rfl
@[simp] theorem State.setPhase_pos (p : Phase) : (s.setPhase p).pos = s.pos := rfl
@[simp] theorem State.setPhase_sq (p : Phase) : (s.setPhase p).sq = s.sq := rfl
@[simp] theorem State.setPhase_busy (p : Phase) : (s.setPhase p).busy = s.busy := rfl
@[simp] theorem State.setPhase_round (p : Phase) : (s.setPhase p).round = s.round := rfl
@[simp] theorem State.setPhase_pendCnt (p : Phase) : (s.setPhase p).pendCnt = s.pendCnt := rfl
@[simp] theorem State.setPhase_pend (p : Phase) : (s.setPhase p).pend = s.pend := rfl
@[simp] theorem State.setPhase_err (p : Phase) : (s.setPhase p).err = s.err := rfl
@[simp] theorem State.setPhase_cause (p : Phase) : (s.setPhase p).cause = s.cause := rfl
@[simp] theorem State.setPhase_result (p : Phase) : (s.setPhase p).result = s.result := rfl
@[simp] theorem State.setPhase_rst (p : Phase) : (s.setPhase p).rst = s.rst := rfl
@[simp] theorem State.setPhase_program (p : Phase) : (s.setPhase p).program = s.program := rfl
@[simp] theorem State.setPhase_pc (p : Phase) : (s.setPhase p).pc = s.pc := rfl
@[simp] theorem State.setPhase_observed (p : Phase) : (s.setPhase p).observed = s.observed := rfl
@[simp] theorem State.setPhase_schedule (p : Phase) : (s.setPhase p).schedule = s.schedule := rfl

/-! ### setPos -/

@[simp] theorem State.setPos_params (n : Nat) : (s.setPos n).params = s.params := rfl
@[simp] theorem State.setPos_lanes (n : Nat) : (s.setPos n).lanes = s.lanes := rfl
@[simp] theorem State.setPos_phase (n : Nat) : (s.setPos n).phase = s.phase := rfl
@[simp] theorem State.setPos_pos (n : Nat) : (s.setPos n).pos = BitVec.ofNat 8 n := rfl
@[simp] theorem State.setPos_sq (n : Nat) : (s.setPos n).sq = s.sq := rfl
@[simp] theorem State.setPos_busy (n : Nat) : (s.setPos n).busy = s.busy := rfl
@[simp] theorem State.setPos_round (n : Nat) : (s.setPos n).round = s.round := rfl
@[simp] theorem State.setPos_pendCnt (n : Nat) : (s.setPos n).pendCnt = s.pendCnt := rfl
@[simp] theorem State.setPos_pend (n : Nat) : (s.setPos n).pend = s.pend := rfl
@[simp] theorem State.setPos_err (n : Nat) : (s.setPos n).err = s.err := rfl
@[simp] theorem State.setPos_cause (n : Nat) : (s.setPos n).cause = s.cause := rfl
@[simp] theorem State.setPos_result (n : Nat) : (s.setPos n).result = s.result := rfl
@[simp] theorem State.setPos_rst (n : Nat) : (s.setPos n).rst = s.rst := rfl
@[simp] theorem State.setPos_program (n : Nat) : (s.setPos n).program = s.program := rfl
@[simp] theorem State.setPos_pc (n : Nat) : (s.setPos n).pc = s.pc := rfl
@[simp] theorem State.setPos_observed (n : Nat) : (s.setPos n).observed = s.observed := rfl
@[simp] theorem State.setPos_schedule (n : Nat) : (s.setPos n).schedule = s.schedule := rfl

/-! ### setSq -/

@[simp] theorem State.setSq_params (n : Nat) : (s.setSq n).params = s.params := rfl
@[simp] theorem State.setSq_lanes (n : Nat) : (s.setSq n).lanes = s.lanes := rfl
@[simp] theorem State.setSq_phase (n : Nat) : (s.setSq n).phase = s.phase := rfl
@[simp] theorem State.setSq_pos (n : Nat) : (s.setSq n).pos = s.pos := rfl
@[simp] theorem State.setSq_sq (n : Nat) : (s.setSq n).sq = BitVec.ofNat 5 n := rfl
@[simp] theorem State.setSq_busy (n : Nat) : (s.setSq n).busy = s.busy := rfl
@[simp] theorem State.setSq_round (n : Nat) : (s.setSq n).round = s.round := rfl
@[simp] theorem State.setSq_pendCnt (n : Nat) : (s.setSq n).pendCnt = s.pendCnt := rfl
@[simp] theorem State.setSq_pend (n : Nat) : (s.setSq n).pend = s.pend := rfl
@[simp] theorem State.setSq_err (n : Nat) : (s.setSq n).err = s.err := rfl
@[simp] theorem State.setSq_cause (n : Nat) : (s.setSq n).cause = s.cause := rfl
@[simp] theorem State.setSq_result (n : Nat) : (s.setSq n).result = s.result := rfl
@[simp] theorem State.setSq_rst (n : Nat) : (s.setSq n).rst = s.rst := rfl
@[simp] theorem State.setSq_program (n : Nat) : (s.setSq n).program = s.program := rfl
@[simp] theorem State.setSq_pc (n : Nat) : (s.setSq n).pc = s.pc := rfl
@[simp] theorem State.setSq_observed (n : Nat) : (s.setSq n).observed = s.observed := rfl
@[simp] theorem State.setSq_schedule (n : Nat) : (s.setSq n).schedule = s.schedule := rfl

/-! ### startPermutation -/

@[simp] theorem State.startPermutation_params : s.startPermutation.params = s.params := rfl
@[simp] theorem State.startPermutation_lanes : s.startPermutation.lanes = s.lanes := rfl
@[simp] theorem State.startPermutation_phase : s.startPermutation.phase = s.phase := rfl
@[simp] theorem State.startPermutation_pos : s.startPermutation.pos = s.pos := rfl
@[simp] theorem State.startPermutation_sq : s.startPermutation.sq = s.sq := rfl
@[simp] theorem State.startPermutation_busy : s.startPermutation.busy = true := rfl
@[simp] theorem State.startPermutation_round : s.startPermutation.round = 0 := rfl
@[simp] theorem State.startPermutation_pendCnt : s.startPermutation.pendCnt = s.pendCnt := rfl
@[simp] theorem State.startPermutation_pend : s.startPermutation.pend = s.pend := rfl
@[simp] theorem State.startPermutation_err : s.startPermutation.err = s.err := rfl
@[simp] theorem State.startPermutation_cause : s.startPermutation.cause = s.cause := rfl
@[simp] theorem State.startPermutation_result : s.startPermutation.result = s.result := rfl
@[simp] theorem State.startPermutation_rst : s.startPermutation.rst = s.rst := rfl
@[simp] theorem State.startPermutation_program : s.startPermutation.program = s.program := rfl
@[simp] theorem State.startPermutation_pc : s.startPermutation.pc = s.pc := rfl
@[simp] theorem State.startPermutation_observed : s.startPermutation.observed = s.observed := rfl
@[simp] theorem State.startPermutation_schedule : s.startPermutation.schedule = s.schedule := rfl

/-! ### endPermutation -/

@[simp] theorem State.endPermutation_params : s.endPermutation.params = s.params := rfl
@[simp] theorem State.endPermutation_lanes : s.endPermutation.lanes = s.lanes := rfl
@[simp] theorem State.endPermutation_phase : s.endPermutation.phase = s.phase := rfl
@[simp] theorem State.endPermutation_pos : s.endPermutation.pos = s.pos := rfl
@[simp] theorem State.endPermutation_sq : s.endPermutation.sq = s.sq := rfl
@[simp] theorem State.endPermutation_busy : s.endPermutation.busy = false := rfl
@[simp] theorem State.endPermutation_round : s.endPermutation.round = 0 := rfl
@[simp] theorem State.endPermutation_pendCnt : s.endPermutation.pendCnt = s.pendCnt := rfl
@[simp] theorem State.endPermutation_pend : s.endPermutation.pend = s.pend := rfl
@[simp] theorem State.endPermutation_err : s.endPermutation.err = s.err := rfl
@[simp] theorem State.endPermutation_cause : s.endPermutation.cause = s.cause := rfl
@[simp] theorem State.endPermutation_result : s.endPermutation.result = s.result := rfl
@[simp] theorem State.endPermutation_rst : s.endPermutation.rst = s.rst := rfl
@[simp] theorem State.endPermutation_program : s.endPermutation.program = s.program := rfl
@[simp] theorem State.endPermutation_pc : s.endPermutation.pc = s.pc := rfl
@[simp] theorem State.endPermutation_observed : s.endPermutation.observed = s.observed := rfl
@[simp] theorem State.endPermutation_schedule : s.endPermutation.schedule = s.schedule := rfl

/-! ### setRound -/

@[simp] theorem State.setRound_params (n : Nat) : (s.setRound n).params = s.params := rfl
@[simp] theorem State.setRound_lanes (n : Nat) : (s.setRound n).lanes = s.lanes := rfl
@[simp] theorem State.setRound_phase (n : Nat) : (s.setRound n).phase = s.phase := rfl
@[simp] theorem State.setRound_pos (n : Nat) : (s.setRound n).pos = s.pos := rfl
@[simp] theorem State.setRound_sq (n : Nat) : (s.setRound n).sq = s.sq := rfl
@[simp] theorem State.setRound_busy (n : Nat) : (s.setRound n).busy = s.busy := rfl
@[simp] theorem State.setRound_round (n : Nat) : (s.setRound n).round = BitVec.ofNat 5 n := rfl
@[simp] theorem State.setRound_pendCnt (n : Nat) : (s.setRound n).pendCnt = s.pendCnt := rfl
@[simp] theorem State.setRound_pend (n : Nat) : (s.setRound n).pend = s.pend := rfl
@[simp] theorem State.setRound_err (n : Nat) : (s.setRound n).err = s.err := rfl
@[simp] theorem State.setRound_cause (n : Nat) : (s.setRound n).cause = s.cause := rfl
@[simp] theorem State.setRound_result (n : Nat) : (s.setRound n).result = s.result := rfl
@[simp] theorem State.setRound_rst (n : Nat) : (s.setRound n).rst = s.rst := rfl
@[simp] theorem State.setRound_program (n : Nat) : (s.setRound n).program = s.program := rfl
@[simp] theorem State.setRound_pc (n : Nat) : (s.setRound n).pc = s.pc := rfl
@[simp] theorem State.setRound_observed (n : Nat) : (s.setRound n).observed = s.observed := rfl
@[simp] theorem State.setRound_schedule (n : Nat) : (s.setRound n).schedule = s.schedule := rfl

/-! ### setPendCnt -/

@[simp] theorem State.setPendCnt_params (n : Nat) : (s.setPendCnt n).params = s.params := rfl
@[simp] theorem State.setPendCnt_lanes (n : Nat) : (s.setPendCnt n).lanes = s.lanes := rfl
@[simp] theorem State.setPendCnt_phase (n : Nat) : (s.setPendCnt n).phase = s.phase := rfl
@[simp] theorem State.setPendCnt_pos (n : Nat) : (s.setPendCnt n).pos = s.pos := rfl
@[simp] theorem State.setPendCnt_sq (n : Nat) : (s.setPendCnt n).sq = s.sq := rfl
@[simp] theorem State.setPendCnt_busy (n : Nat) : (s.setPendCnt n).busy = s.busy := rfl
@[simp] theorem State.setPendCnt_round (n : Nat) : (s.setPendCnt n).round = s.round := rfl
@[simp] theorem State.setPendCnt_pendCnt (n : Nat) : (s.setPendCnt n).pendCnt = BitVec.ofNat 3 n := rfl
@[simp] theorem State.setPendCnt_pend (n : Nat) : (s.setPendCnt n).pend = s.pend := rfl
@[simp] theorem State.setPendCnt_err (n : Nat) : (s.setPendCnt n).err = s.err := rfl
@[simp] theorem State.setPendCnt_cause (n : Nat) : (s.setPendCnt n).cause = s.cause := rfl
@[simp] theorem State.setPendCnt_result (n : Nat) : (s.setPendCnt n).result = s.result := rfl
@[simp] theorem State.setPendCnt_rst (n : Nat) : (s.setPendCnt n).rst = s.rst := rfl
@[simp] theorem State.setPendCnt_program (n : Nat) : (s.setPendCnt n).program = s.program := rfl
@[simp] theorem State.setPendCnt_pc (n : Nat) : (s.setPendCnt n).pc = s.pc := rfl
@[simp] theorem State.setPendCnt_observed (n : Nat) : (s.setPendCnt n).observed = s.observed := rfl
@[simp] theorem State.setPendCnt_schedule (n : Nat) : (s.setPendCnt n).schedule = s.schedule := rfl

/-! ### setPend -/

@[simp] theorem State.setPend_params (p : Vector Byte 7) : (s.setPend p).params = s.params := rfl
@[simp] theorem State.setPend_lanes (p : Vector Byte 7) : (s.setPend p).lanes = s.lanes := rfl
@[simp] theorem State.setPend_phase (p : Vector Byte 7) : (s.setPend p).phase = s.phase := rfl
@[simp] theorem State.setPend_pos (p : Vector Byte 7) : (s.setPend p).pos = s.pos := rfl
@[simp] theorem State.setPend_sq (p : Vector Byte 7) : (s.setPend p).sq = s.sq := rfl
@[simp] theorem State.setPend_busy (p : Vector Byte 7) : (s.setPend p).busy = s.busy := rfl
@[simp] theorem State.setPend_round (p : Vector Byte 7) : (s.setPend p).round = s.round := rfl
@[simp] theorem State.setPend_pendCnt (p : Vector Byte 7) : (s.setPend p).pendCnt = s.pendCnt := rfl
@[simp] theorem State.setPend_pend (p : Vector Byte 7) : (s.setPend p).pend = p := rfl
@[simp] theorem State.setPend_err (p : Vector Byte 7) : (s.setPend p).err = s.err := rfl
@[simp] theorem State.setPend_cause (p : Vector Byte 7) : (s.setPend p).cause = s.cause := rfl
@[simp] theorem State.setPend_result (p : Vector Byte 7) : (s.setPend p).result = s.result := rfl
@[simp] theorem State.setPend_rst (p : Vector Byte 7) : (s.setPend p).rst = s.rst := rfl
@[simp] theorem State.setPend_program (p : Vector Byte 7) : (s.setPend p).program = s.program := rfl
@[simp] theorem State.setPend_pc (p : Vector Byte 7) : (s.setPend p).pc = s.pc := rfl
@[simp] theorem State.setPend_observed (p : Vector Byte 7) : (s.setPend p).observed = s.observed := rfl
@[simp] theorem State.setPend_schedule (p : Vector Byte 7) : (s.setPend p).schedule = s.schedule := rfl

/-! ### setResult -/

@[simp] theorem State.setResult_params (v : BitVec 64) : (s.setResult v).params = s.params := rfl
@[simp] theorem State.setResult_lanes (v : BitVec 64) : (s.setResult v).lanes = s.lanes := rfl
@[simp] theorem State.setResult_phase (v : BitVec 64) : (s.setResult v).phase = s.phase := rfl
@[simp] theorem State.setResult_pos (v : BitVec 64) : (s.setResult v).pos = s.pos := rfl
@[simp] theorem State.setResult_sq (v : BitVec 64) : (s.setResult v).sq = s.sq := rfl
@[simp] theorem State.setResult_busy (v : BitVec 64) : (s.setResult v).busy = s.busy := rfl
@[simp] theorem State.setResult_round (v : BitVec 64) : (s.setResult v).round = s.round := rfl
@[simp] theorem State.setResult_pendCnt (v : BitVec 64) : (s.setResult v).pendCnt = s.pendCnt := rfl
@[simp] theorem State.setResult_pend (v : BitVec 64) : (s.setResult v).pend = s.pend := rfl
@[simp] theorem State.setResult_err (v : BitVec 64) : (s.setResult v).err = s.err := rfl
@[simp] theorem State.setResult_cause (v : BitVec 64) : (s.setResult v).cause = s.cause := rfl
@[simp] theorem State.setResult_result (v : BitVec 64) : (s.setResult v).result = v := rfl
@[simp] theorem State.setResult_rst (v : BitVec 64) : (s.setResult v).rst = s.rst := rfl
@[simp] theorem State.setResult_program (v : BitVec 64) : (s.setResult v).program = s.program := rfl
@[simp] theorem State.setResult_pc (v : BitVec 64) : (s.setResult v).pc = s.pc := rfl
@[simp] theorem State.setResult_observed (v : BitVec 64) : (s.setResult v).observed = s.observed := rfl
@[simp] theorem State.setResult_schedule (v : BitVec 64) : (s.setResult v).schedule = s.schedule := rfl

/-! ### setRst -/

@[simp] theorem State.setRst_params (level : Bool) : (s.setRst level).params = s.params := rfl
@[simp] theorem State.setRst_lanes (level : Bool) : (s.setRst level).lanes = s.lanes := rfl
@[simp] theorem State.setRst_phase (level : Bool) : (s.setRst level).phase = s.phase := rfl
@[simp] theorem State.setRst_pos (level : Bool) : (s.setRst level).pos = s.pos := rfl
@[simp] theorem State.setRst_sq (level : Bool) : (s.setRst level).sq = s.sq := rfl
@[simp] theorem State.setRst_busy (level : Bool) : (s.setRst level).busy = s.busy := rfl
@[simp] theorem State.setRst_round (level : Bool) : (s.setRst level).round = s.round := rfl
@[simp] theorem State.setRst_pendCnt (level : Bool) : (s.setRst level).pendCnt = s.pendCnt := rfl
@[simp] theorem State.setRst_pend (level : Bool) : (s.setRst level).pend = s.pend := rfl
@[simp] theorem State.setRst_err (level : Bool) : (s.setRst level).err = s.err := rfl
@[simp] theorem State.setRst_cause (level : Bool) : (s.setRst level).cause = s.cause := rfl
@[simp] theorem State.setRst_result (level : Bool) : (s.setRst level).result = s.result := rfl
@[simp] theorem State.setRst_rst (level : Bool) : (s.setRst level).rst = level := rfl
@[simp] theorem State.setRst_program (level : Bool) : (s.setRst level).program = s.program := rfl
@[simp] theorem State.setRst_pc (level : Bool) : (s.setRst level).pc = s.pc := rfl
@[simp] theorem State.setRst_observed (level : Bool) : (s.setRst level).observed = s.observed := rfl
@[simp] theorem State.setRst_schedule (level : Bool) : (s.setRst level).schedule = s.schedule := rfl

/-! ### advancePc -/

@[simp] theorem State.advancePc_params : s.advancePc.params = s.params := rfl
@[simp] theorem State.advancePc_lanes : s.advancePc.lanes = s.lanes := rfl
@[simp] theorem State.advancePc_phase : s.advancePc.phase = s.phase := rfl
@[simp] theorem State.advancePc_pos : s.advancePc.pos = s.pos := rfl
@[simp] theorem State.advancePc_sq : s.advancePc.sq = s.sq := rfl
@[simp] theorem State.advancePc_busy : s.advancePc.busy = s.busy := rfl
@[simp] theorem State.advancePc_round : s.advancePc.round = s.round := rfl
@[simp] theorem State.advancePc_pendCnt : s.advancePc.pendCnt = s.pendCnt := rfl
@[simp] theorem State.advancePc_pend : s.advancePc.pend = s.pend := rfl
@[simp] theorem State.advancePc_err : s.advancePc.err = s.err := rfl
@[simp] theorem State.advancePc_cause : s.advancePc.cause = s.cause := rfl
@[simp] theorem State.advancePc_result : s.advancePc.result = s.result := rfl
@[simp] theorem State.advancePc_rst : s.advancePc.rst = s.rst := rfl
@[simp] theorem State.advancePc_program : s.advancePc.program = s.program := rfl
@[simp] theorem State.advancePc_pc : s.advancePc.pc = s.pc + 1 := rfl
@[simp] theorem State.advancePc_observed : s.advancePc.observed = s.observed := rfl
@[simp] theorem State.advancePc_schedule : s.advancePc.schedule = s.schedule := rfl

/-! ### observe -/

@[simp] theorem State.observe_params (o : Observation) : (s.observe o).params = s.params := rfl
@[simp] theorem State.observe_lanes (o : Observation) : (s.observe o).lanes = s.lanes := rfl
@[simp] theorem State.observe_phase (o : Observation) : (s.observe o).phase = s.phase := rfl
@[simp] theorem State.observe_pos (o : Observation) : (s.observe o).pos = s.pos := rfl
@[simp] theorem State.observe_sq (o : Observation) : (s.observe o).sq = s.sq := rfl
@[simp] theorem State.observe_busy (o : Observation) : (s.observe o).busy = s.busy := rfl
@[simp] theorem State.observe_round (o : Observation) : (s.observe o).round = s.round := rfl
@[simp] theorem State.observe_pendCnt (o : Observation) : (s.observe o).pendCnt = s.pendCnt := rfl
@[simp] theorem State.observe_pend (o : Observation) : (s.observe o).pend = s.pend := rfl
@[simp] theorem State.observe_err (o : Observation) : (s.observe o).err = s.err := rfl
@[simp] theorem State.observe_cause (o : Observation) : (s.observe o).cause = s.cause := rfl
@[simp] theorem State.observe_result (o : Observation) : (s.observe o).result = s.result := rfl
@[simp] theorem State.observe_rst (o : Observation) : (s.observe o).rst = s.rst := rfl
@[simp] theorem State.observe_program (o : Observation) : (s.observe o).program = s.program := rfl
@[simp] theorem State.observe_pc (o : Observation) : (s.observe o).pc = s.pc := rfl
@[simp] theorem State.observe_observed (o : Observation) : (s.observe o).observed = s.observed ++ [o] := rfl
@[simp] theorem State.observe_schedule (o : Observation) : (s.observe o).schedule = s.schedule := rfl

/-! ### setProgram -/

@[simp] theorem State.setProgram_params (p : List HostAction) : (s.setProgram p).params = s.params := rfl
@[simp] theorem State.setProgram_lanes (p : List HostAction) : (s.setProgram p).lanes = s.lanes := rfl
@[simp] theorem State.setProgram_phase (p : List HostAction) : (s.setProgram p).phase = s.phase := rfl
@[simp] theorem State.setProgram_pos (p : List HostAction) : (s.setProgram p).pos = s.pos := rfl
@[simp] theorem State.setProgram_sq (p : List HostAction) : (s.setProgram p).sq = s.sq := rfl
@[simp] theorem State.setProgram_busy (p : List HostAction) : (s.setProgram p).busy = s.busy := rfl
@[simp] theorem State.setProgram_round (p : List HostAction) : (s.setProgram p).round = s.round := rfl
@[simp] theorem State.setProgram_pendCnt (p : List HostAction) : (s.setProgram p).pendCnt = s.pendCnt := rfl
@[simp] theorem State.setProgram_pend (p : List HostAction) : (s.setProgram p).pend = s.pend := rfl
@[simp] theorem State.setProgram_err (p : List HostAction) : (s.setProgram p).err = s.err := rfl
@[simp] theorem State.setProgram_cause (p : List HostAction) : (s.setProgram p).cause = s.cause := rfl
@[simp] theorem State.setProgram_result (p : List HostAction) : (s.setProgram p).result = s.result := rfl
@[simp] theorem State.setProgram_rst (p : List HostAction) : (s.setProgram p).rst = s.rst := rfl
@[simp] theorem State.setProgram_program (p : List HostAction) : (s.setProgram p).program = p := rfl
@[simp] theorem State.setProgram_pc (p : List HostAction) : (s.setProgram p).pc = s.pc := rfl
@[simp] theorem State.setProgram_observed (p : List HostAction) : (s.setProgram p).observed = s.observed := rfl
@[simp] theorem State.setProgram_schedule (p : List HostAction) : (s.setProgram p).schedule = s.schedule := rfl

/-! ### setSchedule -/

@[simp] theorem State.setSchedule_params (l : List Agent) : (s.setSchedule l).params = s.params := rfl
@[simp] theorem State.setSchedule_lanes (l : List Agent) : (s.setSchedule l).lanes = s.lanes := rfl
@[simp] theorem State.setSchedule_phase (l : List Agent) : (s.setSchedule l).phase = s.phase := rfl
@[simp] theorem State.setSchedule_pos (l : List Agent) : (s.setSchedule l).pos = s.pos := rfl
@[simp] theorem State.setSchedule_sq (l : List Agent) : (s.setSchedule l).sq = s.sq := rfl
@[simp] theorem State.setSchedule_busy (l : List Agent) : (s.setSchedule l).busy = s.busy := rfl
@[simp] theorem State.setSchedule_round (l : List Agent) : (s.setSchedule l).round = s.round := rfl
@[simp] theorem State.setSchedule_pendCnt (l : List Agent) : (s.setSchedule l).pendCnt = s.pendCnt := rfl
@[simp] theorem State.setSchedule_pend (l : List Agent) : (s.setSchedule l).pend = s.pend := rfl
@[simp] theorem State.setSchedule_err (l : List Agent) : (s.setSchedule l).err = s.err := rfl
@[simp] theorem State.setSchedule_cause (l : List Agent) : (s.setSchedule l).cause = s.cause := rfl
@[simp] theorem State.setSchedule_result (l : List Agent) : (s.setSchedule l).result = s.result := rfl
@[simp] theorem State.setSchedule_rst (l : List Agent) : (s.setSchedule l).rst = s.rst := rfl
@[simp] theorem State.setSchedule_program (l : List Agent) : (s.setSchedule l).program = s.program := rfl
@[simp] theorem State.setSchedule_pc (l : List Agent) : (s.setSchedule l).pc = s.pc := rfl
@[simp] theorem State.setSchedule_observed (l : List Agent) : (s.setSchedule l).observed = s.observed := rfl
@[simp] theorem State.setSchedule_schedule (l : List Agent) : (s.setSchedule l).schedule = l := rfl

/-! ### raise -/

@[simp] theorem State.raise_params (c : Cause) : (s.raise c).params = s.params := rfl
@[simp] theorem State.raise_lanes (c : Cause) : (s.raise c).lanes = s.lanes := rfl
@[simp] theorem State.raise_phase (c : Cause) : (s.raise c).phase = s.phase := rfl
@[simp] theorem State.raise_pos (c : Cause) : (s.raise c).pos = s.pos := rfl
@[simp] theorem State.raise_sq (c : Cause) : (s.raise c).sq = s.sq := rfl
@[simp] theorem State.raise_busy (c : Cause) : (s.raise c).busy = s.busy := rfl
@[simp] theorem State.raise_round (c : Cause) : (s.raise c).round = s.round := rfl
@[simp] theorem State.raise_pendCnt (c : Cause) : (s.raise c).pendCnt = s.pendCnt := rfl
@[simp] theorem State.raise_pend (c : Cause) : (s.raise c).pend = s.pend := rfl
@[simp] theorem State.raise_err (c : Cause) : (s.raise c).err = true := rfl
@[simp] theorem State.raise_cause (c : Cause) : (s.raise c).cause = if s.err then s.cause else c.code := rfl
@[simp] theorem State.raise_result (c : Cause) : (s.raise c).result = s.result := rfl
@[simp] theorem State.raise_rst (c : Cause) : (s.raise c).rst = s.rst := rfl
@[simp] theorem State.raise_program (c : Cause) : (s.raise c).program = s.program := rfl
@[simp] theorem State.raise_pc (c : Cause) : (s.raise c).pc = s.pc := rfl
@[simp] theorem State.raise_observed (c : Cause) : (s.raise c).observed = s.observed := rfl
@[simp] theorem State.raise_schedule (c : Cause) : (s.raise c).schedule = s.schedule := rfl

/-! ### clearError -/

@[simp] theorem State.clearError_params : s.clearError.params = s.params := rfl
@[simp] theorem State.clearError_lanes : s.clearError.lanes = s.lanes := rfl
@[simp] theorem State.clearError_phase : s.clearError.phase = s.phase := rfl
@[simp] theorem State.clearError_pos : s.clearError.pos = s.pos := rfl
@[simp] theorem State.clearError_sq : s.clearError.sq = s.sq := rfl
@[simp] theorem State.clearError_busy : s.clearError.busy = s.busy := rfl
@[simp] theorem State.clearError_round : s.clearError.round = s.round := rfl
@[simp] theorem State.clearError_pendCnt : s.clearError.pendCnt = s.pendCnt := rfl
@[simp] theorem State.clearError_pend : s.clearError.pend = s.pend := rfl
@[simp] theorem State.clearError_err : s.clearError.err = false := rfl
@[simp] theorem State.clearError_cause : s.clearError.cause = 0 := rfl
@[simp] theorem State.clearError_result : s.clearError.result = s.result := rfl
@[simp] theorem State.clearError_rst : s.clearError.rst = s.rst := rfl
@[simp] theorem State.clearError_program : s.clearError.program = s.program := rfl
@[simp] theorem State.clearError_pc : s.clearError.pc = s.pc := rfl
@[simp] theorem State.clearError_observed : s.clearError.observed = s.observed := rfl
@[simp] theorem State.clearError_schedule : s.clearError.schedule = s.schedule := rfl

/-! ### applyReset -/

@[simp] theorem State.applyReset_params : s.applyReset.params = s.params := rfl
@[simp] theorem State.applyReset_lanes : s.applyReset.lanes = zeroLanes := rfl
@[simp] theorem State.applyReset_phase : s.applyReset.phase = .absorb := rfl
@[simp] theorem State.applyReset_pos : s.applyReset.pos = 0 := rfl
@[simp] theorem State.applyReset_sq : s.applyReset.sq = 0 := rfl
@[simp] theorem State.applyReset_busy : s.applyReset.busy = false := rfl
@[simp] theorem State.applyReset_round : s.applyReset.round = 0 := rfl
@[simp] theorem State.applyReset_pendCnt : s.applyReset.pendCnt = 0 := rfl
@[simp] theorem State.applyReset_pend : s.applyReset.pend = Vector.replicate 7 0 := rfl
@[simp] theorem State.applyReset_err : s.applyReset.err = false := rfl
@[simp] theorem State.applyReset_cause : s.applyReset.cause = 0 := rfl
@[simp] theorem State.applyReset_result : s.applyReset.result = 0 := rfl
@[simp] theorem State.applyReset_rst : s.applyReset.rst = s.rst := rfl
@[simp] theorem State.applyReset_program : s.applyReset.program = s.program := rfl
@[simp] theorem State.applyReset_pc : s.applyReset.pc = s.pc := rfl
@[simp] theorem State.applyReset_observed : s.applyReset.observed = s.observed := rfl
@[simp] theorem State.applyReset_schedule : s.applyReset.schedule = s.schedule := rfl

end Sys2Proof.Machine
end

