-- ==== Sys2Proof/Laws/Engine.lean ====
section
/-! SUPPORT. The engine step and sequences of it: the two cases of a step, what a step leaves unchanged, and rounds in
sequence. -/

namespace Sys2Proof.Machine

open Sys2Proof.Config

/-! ### One engine step -/

theorem engineStep_round {s : State} (h : s.round.toNat ≠ 23) :
    engineStep s = (s.setLanes (rnd s.lanes s.round.toNat)).setRound (s.round.toNat + 1) := by
  simp [engineStep, h]

theorem engineStep_last {s : State} (h : s.round.toNat = 23) :
    engineStep s = (s.setLanes (rnd s.lanes 23)).finishPermutation := by
  simp [engineStep, h]

@[simp] theorem pendingBytes_setLanes (s : State) (a : Lanes) : (s.setLanes a).pendingBytes = s.pendingBytes := rfl

/-- The end of a permutation, field by field (R109). -/
@[simp] theorem finishPermutation_fields (s : State) :
    s.finishPermutation.lanes = xorBytes s.lanes s.pos.toNat s.pendingBytes ∧
    s.finishPermutation.pos = BitVec.ofNat 8 (s.pos.toNat + s.pendCnt.toNat) ∧
    s.finishPermutation.busy = false ∧ s.finishPermutation.round = 0 ∧ s.finishPermutation.pendCnt = 0 ∧
    s.finishPermutation.params = s.params ∧ s.finishPermutation.phase = s.phase ∧ s.finishPermutation.sq = s.sq ∧
    s.finishPermutation.pend = s.pend ∧ s.finishPermutation.err = s.err ∧ s.finishPermutation.cause = s.cause ∧
    s.finishPermutation.result = s.result ∧ s.finishPermutation.rst = s.rst ∧
    s.finishPermutation.program = s.program ∧ s.finishPermutation.pc = s.pc ∧
    s.finishPermutation.observed = s.observed ∧ s.finishPermutation.schedule = s.schedule :=
  ⟨rfl, rfl, rfl, rfl, rfl, rfl, rfl, rfl, rfl, rfl, rfl, rfl, rfl, rfl, rfl, rfl, rfl⟩

/-- The engine step writes no flag, RESULT, PHASE, SQ, ERR or CAUSE (R109), and nothing of the host or the build. -/
theorem engineStep_frame (s : State) :
    (engineStep s).params = s.params ∧ (engineStep s).phase = s.phase ∧ (engineStep s).sq = s.sq ∧
    (engineStep s).pend = s.pend ∧ (engineStep s).err = s.err ∧ (engineStep s).cause = s.cause ∧
    (engineStep s).result = s.result ∧ (engineStep s).rst = s.rst ∧ (engineStep s).program = s.program ∧
    (engineStep s).pc = s.pc ∧ (engineStep s).observed = s.observed ∧ (engineStep s).schedule = s.schedule := by
  by_cases h : s.round.toNat = 23
  · rw [engineStep_last h]; simp
  · rw [engineStep_round h]; simp

/-- Before round 23 the permutation goes on. -/
theorem engineStep_busy {s : State} (h : s.round.toNat ≠ 23) :
    (engineStep s).busy = s.busy ∧ (engineStep s).pos = s.pos ∧ (engineStep s).pendCnt = s.pendCnt := by
  rw [engineStep_round h]; simp

/-- Round 23 ends the permutation. -/
theorem engineStep_ends {s : State} (h : s.round.toNat = 23) :
    (engineStep s).busy = false ∧ (engineStep s).round = 0 ∧ (engineStep s).pendCnt = 0 := by
  rw [engineStep_last h]; simp

/-- The lanes and POS after round 23: the permuted lanes with the pending bytes XORed in, POS past them (R109). -/
theorem engineStep_last_lanes {s : State} (h : s.round.toNat = 23) :
    (engineStep s).lanes = xorBytes (rnd s.lanes 23) s.pos.toNat s.pendingBytes ∧
    (engineStep s).pos = BitVec.ofNat 8 (s.pos.toNat + s.pendCnt.toNat) := by
  rw [engineStep_last h]; simp

/-! ### Rounds and engine steps in sequence -/

theorem rounds_succ (a : Lanes) (first k : Nat) : rounds a first (k + 1) = rnd (rounds a first k) (first + k) := by
  induction k generalizing a first with
  | zero => rfl
  | succ k ih =>
    rw [rounds, ih (rnd a first) (first + 1), rounds, Nat.add_right_comm, Nat.add_assoc]

theorem engineSteps_succ (k : Nat) (s : State) : engineSteps (k + 1) s = engineStep (engineSteps k s) := by
  induction k generalizing s with
  | zero => rfl
  | succ k ih => rw [engineSteps, ih (engineStep s), engineSteps]

theorem engineSteps_add (j k : Nat) (s : State) : engineSteps (j + k) s = engineSteps k (engineSteps j s) := by
  induction j generalizing s with
  | zero => rw [Nat.zero_add]; rfl
  | succ j ih => rw [Nat.succ_add, engineSteps, ih, engineSteps]

/-- Steps that stay below round 24 only apply rounds and count them. -/
theorem engineSteps_before_last {s : State} (k : Nat) (h : s.round.toNat + k ≤ 23) :
    engineSteps k s = (s.setLanes (rounds s.lanes s.round.toNat k)).setRound (s.round.toNat + k) := by
  induction k with
  | zero =>
    have : BitVec.ofNat 5 s.round.toNat = s.round := by simp
    simp [engineSteps, State.setLanes, State.setRound, rounds]
  | succ k ih =>
    have h1 : (s.round.toNat + k) % 32 = s.round.toNat + k := by omega
    rw [engineSteps_succ, ih (by omega), engineStep_round (by simp; omega)]
    simp [State.setLanes, State.setRound, h1, rounds_succ, Nat.add_assoc]

/-- Engine steps write no flag, RESULT, PHASE, SQ, ERR or CAUSE, and nothing of the host or the build (R109). -/
theorem engineSteps_frame (k : Nat) (s : State) : (engineSteps k s).params = s.params ∧ (engineSteps k s).phase = s.phase ∧ (engineSteps k s).sq = s.sq ∧
    (engineSteps k s).pend = s.pend ∧ (engineSteps k s).err = s.err ∧ (engineSteps k s).cause = s.cause ∧
    (engineSteps k s).result = s.result ∧ (engineSteps k s).rst = s.rst ∧ (engineSteps k s).program = s.program ∧
    (engineSteps k s).pc = s.pc ∧ (engineSteps k s).observed = s.observed ∧ (engineSteps k s).schedule = s.schedule := by
  induction k with
  | zero => simp [engineSteps]
  | succ k ih => rw [engineSteps_succ]; have := engineStep_frame (engineSteps k s); simp_all

/-- The remaining rounds end the permutation. -/
theorem engineSteps_end (s : State) (h : s.round.toNat < 24) : (engineSteps (24 - s.round.toNat) s).busy = false ∧ (engineSteps (24 - s.round.toNat) s).round = 0 ∧ (engineSteps (24 - s.round.toNat) s).pendCnt = 0 := by
  have e : 24 - s.round.toNat = (23 - s.round.toNat) + 1 := by omega
  rw [e, engineSteps_succ]
  apply engineStep_ends
  rw [engineSteps_before_last _ (by omega)]
  simp; omega

/-- The lanes and POS after the remaining rounds (R109). -/
theorem engineSteps_end_lanes (u : State) (hround : u.round.toNat < 24) :
    (engineSteps (24 - u.round.toNat) u).lanes = xorBytes (rounds u.lanes u.round.toNat (24 - u.round.toNat)) u.pos.toNat u.pendingBytes ∧
    (engineSteps (24 - u.round.toNat) u).pos = BitVec.ofNat 8 (u.pos.toNat + u.pendCnt.toNat) := by
  have e : 24 - u.round.toNat = (23 - u.round.toNat) + 1 := by omega
  rw [e, engineSteps_succ, engineSteps_before_last _ (by omega)]
  have h23 : ((u.setLanes (rounds u.lanes u.round.toNat (23 - u.round.toNat))).setRound (u.round.toNat + (23 - u.round.toNat))).round.toNat = 23 := by
    simp; omega
  obtain ⟨h1, h2⟩ := engineStep_last_lanes h23
  rw [h1, h2, rounds_succ]
  rw [show u.round.toNat + (23 - u.round.toNat) = 23 by omega]
  exact ⟨rfl, rfl⟩

end Sys2Proof.Machine
end

