-- ==== Sys2Proof/Laws/PerInstr.lean ====
section
/-! SUPPORT. Facts about each instruction as syntax, one lemma per constructor: the fields of its encoded word. -/

namespace Sys2Proof.Laws.EncodedFields

/-- The OPC of a command (R75). -/
def opcodeOf : Instr → BitVec 4
  | .init         => 1
  | .absorb _ _   => 2
  | .final        => 3
  | .squeeze      => 4
  | .permute      => 5
  | .loadLane _ _ => 6
  | .readLane _   => 7

/-- The ARG of a command, 0 where it has none (R73). -/
def argOf : Instr → BitVec 5
  | .init         => 0
  | .absorb n _   => n
  | .final        => 0
  | .squeeze      => 0
  | .permute      => 0
  | .loadLane i _ => i
  | .readLane i   => i

/-- The encoded word carries the command's OPC, RSV = 0 and the command's ARG; and ARG is in the opcode's range exactly
where the command is well-formed (R72, R73, R75). -/
def Statement (i : Instr) : Prop :=
  opcField (encode i).cmd = opcodeOf i ∧ rsvField (encode i).cmd = 0 ∧ argField (encode i).cmd = argOf i ∧
    argLegal (opcodeOf i) (argOf i) = i.wf

theorem init : Statement .init := by simp [Statement, encode, opcodeOf, argOf, argLegal, Instr.wf]

theorem absorb (n : BitVec 5) (data : DataWord) : Statement (.absorb n data) := by
  refine ⟨?_, ?_, ?_, rfl⟩ <;> simp [encode, opcodeOf, argOf]

theorem final : Statement .final := by simp [Statement, encode, opcodeOf, argOf, argLegal, Instr.wf]

theorem squeeze : Statement .squeeze := by simp [Statement, encode, opcodeOf, argOf, argLegal, Instr.wf]

theorem permute : Statement .permute := by simp [Statement, encode, opcodeOf, argOf, argLegal, Instr.wf]

theorem loadLane (i : BitVec 5) (data : DataWord) : Statement (.loadLane i data) := by
  refine ⟨?_, ?_, ?_, rfl⟩ <;> simp [encode, opcodeOf, argOf]

theorem readLane (i : BitVec 5) : Statement (.readLane i) := by
  refine ⟨?_, ?_, ?_, rfl⟩ <;> simp [encode, opcodeOf, argOf]

end Sys2Proof.Laws.EncodedFields
end

