-- ==== Sys2Proof/Laws/Exec.lean ====
section
/-! SUPPORT. What accepting a command can do, said once: held, its first failing check's cause raised, or its effect; and
the same for each instruction. -/

namespace Sys2Proof.Machine

open Sys2Proof.Config

/-! ### Accepting -/

/-- A command whose checks all pass has its effect. -/
theorem whenAccepted_effect {s : State} {checks : List (Bool × Cause)} (effect : State → State)
    (h : s.cmdReady = true) (hc : firstCause checks = none) : s.whenAccepted checks effect = .next (effect s) := by
  simp [State.whenAccepted, h, hc]

/-- A command that fails a check raises that check's cause. -/
theorem whenAccepted_raise {s : State} {checks : List (Bool × Cause)} {c : Cause} (effect : State → State)
    (h : s.cmdReady = true) (hc : firstCause checks = some c) : s.whenAccepted checks effect = .next (s.raise c) := by
  simp [State.whenAccepted, h, hc]

/-- A command that is not accepted is held with no effect. -/
theorem whenAccepted_held {s : State} (checks : List (Bool × Cause)) (effect : State → State)
    (h : s.cmdReady = false) : s.whenAccepted checks effect = .next s := by
  simp [State.whenAccepted, h]

theorem cmdReady_iff (s : State) : s.cmdReady = true ↔ s.busy = false ∧ s.rst = false := by
  simp [State.cmdReady]

/-! ### The effect and the cause of each instruction -/

/-- What an instruction writes when it executes. -/
def effectOf : Instr → State → State
  | .init,         s => initialise s
  | .absorb n d,   s => absorbEffect n.toNat d s
  | .final,        s => finalEffect s
  | .squeeze,      s => squeezeEffect s
  | .permute,      s => s.startPermutation
  | .loadLane i d, s => s.setLanes (setLane s.lanes i.toNat d)
  | .readLane i,   s => s.setResult (lane s.lanes i.toNat)

/-- The cause an instruction raises when it does not execute (R181, R183). -/
def causeOf : Instr → State → Cause
  | .init,         _ => .illegalField
  | .absorb n _,   _ => if byteCountWf n = true then .wrongPhase else .illegalField
  | .final,        _ => .wrongPhase
  | .squeeze,      _ => .wrongPhase
  | .permute,      _ => .illegalField
  | .loadLane _ _, s => if s.params.laneAccess = true then .illegalField else .illegalOpcode
  | .readLane _,   s => if s.params.laneAccess = true then .illegalField else .illegalOpcode

/-- An instruction that passes its checks has its effect. -/
theorem exec_executes {s : State} {i : Instr} (h : s.cmdReady = true) (he : s.executes i = true) :
    exec i s = .next (effectOf i s) := by
  cases i <;> simp only [exec, effectOf, execInit, execAbsorb, execFinal, execSqueeze, execPermute, execLoadLane,
    execReadLane] <;> apply whenAccepted_effect _ h <;>
    simp_all [State.executes, firstCause, laneChecks, byteCountWf, byteCountLegal, laneIndexWf, laneIndexLegal]

/-- An instruction that fails a check raises its cause and is not executed. -/
theorem exec_raises {s : State} {i : Instr} (h : s.cmdReady = true) (he : s.executes i = false) :
    exec i s = .next (s.raise (causeOf i s)) := by
  cases i with
  | init => simp [State.executes] at he
  | permute => simp [State.executes] at he
  | absorb n d =>
    simp only [exec, execAbsorb, causeOf]
    apply whenAccepted_raise _ h
    by_cases hn : byteCountWf n = true
    · have hl : byteCountLegal n = true := hn
      simp_all [State.executes, firstCause]
    · have hl : byteCountLegal n = false := by
        have : byteCountLegal n = byteCountWf n := rfl
        simp_all
      simp [firstCause, hl, hn]
  | final => simp only [exec, execFinal, causeOf]; apply whenAccepted_raise _ h; simp_all [State.executes, firstCause]
  | squeeze => simp only [exec, execSqueeze, causeOf]; apply whenAccepted_raise _ h; simp_all [State.executes, firstCause]
  | loadLane i d =>
    simp only [exec, execLoadLane, causeOf]
    apply whenAccepted_raise _ h
    have hl : laneIndexLegal i = laneIndexWf i := rfl
    by_cases hla : s.params.laneAccess = true <;> simp_all [State.executes, firstCause, laneChecks]
  | readLane i =>
    simp only [exec, execReadLane, causeOf]
    apply whenAccepted_raise _ h
    have hl : laneIndexLegal i = laneIndexWf i := rfl
    by_cases hla : s.params.laneAccess = true <;> simp_all [State.executes, firstCause, laneChecks]

/-- An instruction that is not accepted is held. -/
theorem exec_held {s : State} (i : Instr) (h : s.cmdReady = false) : exec i s = .next s := by
  cases i <;> simp only [exec, execInit, execAbsorb, execFinal, execSqueeze, execPermute, execLoadLane, execReadLane] <;>
    exact whenAccepted_held _ _ h

/-- Everything executing an instruction can do. -/
theorem exec_cases (i : Instr) (s : State) :
    (s.cmdReady = false ∧ exec i s = .next s) ∨
    (s.cmdReady = true ∧ s.executes i = false ∧ exec i s = .next (s.raise (causeOf i s))) ∨
    (s.cmdReady = true ∧ s.executes i = true ∧ exec i s = .next (effectOf i s)) := by
  cases hr : s.cmdReady
  · exact .inl ⟨rfl, exec_held i hr⟩
  · cases he : s.executes i
    · exact .inr (.inl ⟨rfl, rfl, exec_raises hr he⟩)
    · exact .inr (.inr ⟨rfl, rfl, exec_executes hr he⟩)

/-- Everything a command on the port can do, from a state that accepts it. -/
theorem runCommand_cases (c : Command) {s : State} (h : s.cmdReady = true) :
    (∃ k, runCommand c s = .next (s.raise k)) ∨
    (∃ i, decode s.params.laneAccess c = .ok i ∧ s.executes i = true ∧ runCommand c s = .next (effectOf i s)) := by
  unfold runCommand
  cases hd : decode s.params.laneAccess c with
  | error e => exact .inl ⟨decodeCause e, whenAccepted_raise _ h rfl⟩
  | ok i =>
    cases he : s.executes i
    · exact .inl ⟨_, exec_raises h he⟩
    · exact .inr ⟨i, rfl, he, exec_executes h he⟩

/-! ### What each effect leaves unchanged -/

/-- No effect touches the build, the pin or the host. -/
@[simp] theorem effectOf_params (i : Instr) (s : State) : (effectOf i s).params = s.params := by
  cases i <;> simp only [effectOf, initialise, absorbEffect, closeBlock, finalEffect, squeezeEffect] <;> (try split) <;> rfl

@[simp] theorem effectOf_rst (i : Instr) (s : State) : (effectOf i s).rst = s.rst := by
  cases i <;> simp only [effectOf, initialise, absorbEffect, closeBlock, finalEffect, squeezeEffect] <;> (try split) <;> rfl

@[simp] theorem effectOf_program (i : Instr) (s : State) : (effectOf i s).program = s.program := by
  cases i <;> simp only [effectOf, initialise, absorbEffect, closeBlock, finalEffect, squeezeEffect] <;> (try split) <;> rfl

@[simp] theorem effectOf_pc (i : Instr) (s : State) : (effectOf i s).pc = s.pc := by
  cases i <;> simp only [effectOf, initialise, absorbEffect, closeBlock, finalEffect, squeezeEffect] <;> (try split) <;> rfl

@[simp] theorem effectOf_observed (i : Instr) (s : State) : (effectOf i s).observed = s.observed := by
  cases i <;> simp only [effectOf, initialise, absorbEffect, closeBlock, finalEffect, squeezeEffect] <;> (try split) <;> rfl

@[simp] theorem effectOf_schedule (i : Instr) (s : State) : (effectOf i s).schedule = s.schedule := by
  cases i <;> simp only [effectOf, initialise, absorbEffect, closeBlock, finalEffect, squeezeEffect] <;> (try split) <;> rfl

/-! ### A command on the port -/

/-- A command that does not decode raises its cause (R76). -/
theorem runCommand_of_error {s : State} {c : Command} {e} (hr : s.cmdReady = true) (h : decode s.params.laneAccess c = .error e) :
    runCommand c s = .next (s.raise (decodeCause e)) := by
  unfold runCommand; rw [h]; exact whenAccepted_raise _ hr rfl

/-- A command that decodes is its instruction. -/
theorem runCommand_of_ok {s : State} {c : Command} {i} (h : decode s.params.laneAccess c = .ok i) :
    runCommand c s = exec i s := by
  unfold runCommand; rw [h]

end Sys2Proof.Machine
end

