-- ==== Sys2Proof/Laws/Sponge.lean ====
section
/-! SUPPORT. The sponge commands' effects, one equation per case, in registers and state bytes. -/

namespace Sys2Proof.Machine

open Sys2Proof.Config

/-! ### Bytes of a data operand -/

@[simp] theorem wordBytes_length (v : BitVec 64) (t k : Nat) : (wordBytes v t k).length = k := by
  induction k generalizing t with
  | zero => rfl
  | succ k ih => simp [wordBytes, ih]

theorem wordBytes_getD (v : BitVec 64) (t k i : Nat) (h : i < k) : (wordBytes v t k).getD i 0 = wordByte v (t + i) := by
  induction k generalizing t i with
  | zero => omega
  | succ k ih =>
    cases i with
    | zero => rfl
    | succ i => simp only [wordBytes, List.getD_cons_succ]; rw [ih (t + 1) i (by omega), Nat.add_right_comm, Nat.add_assoc]

theorem wordBytes_append (v : BitVec 64) (t j k : Nat) : wordBytes v t (j + k) = wordBytes v t j ++ wordBytes v (t + j) k := by
  induction j generalizing t with
  | zero => simp [wordBytes]
  | succ j ih =>
    rw [Nat.succ_add, wordBytes, wordBytes, ih (t + 1), List.cons_append]
    congr 3
    omega

/-! ### ABSORB -/

theorem absorbEffect_within (n : Nat) (d : DataWord) (s : State) (h : s.pos.toNat + n < 136) :
    absorbEffect n d s =
      (s.setLanes (xorBytes s.lanes s.pos.toNat (wordBytes d 0 n))).setPos (s.pos.toNat + n) := by
  have hk : fitting s n = n := by simp only [fitting, rate]; omega
  have hne : ¬ s.pos.toNat + n = rate := by simp only [rate]; omega
  simp only [absorbEffect, hk, if_neg hne]

theorem absorbEffect_full (n : Nat) (d : DataWord) (s : State) (h : 136 ≤ s.pos.toNat + n) (hp : s.pos.toNat ≤ 136) :
    absorbEffect n d s =
      closeBlock (wordBytes d (136 - s.pos.toNat) (s.pos.toNat + n - 136))
        (s.setLanes (xorBytes s.lanes s.pos.toNat (wordBytes d 0 (136 - s.pos.toNat)))) := by
  have hk : fitting s n = 136 - s.pos.toNat := by simp only [fitting, rate]; omega
  have he : s.pos.toNat + (136 - s.pos.toNat) = rate := by simp only [rate]; omega
  have hn : n - (136 - s.pos.toNat) = s.pos.toNat + n - 136 := by omega
  simp only [absorbEffect, hk, if_pos he, hn]

theorem storePend_getD (bs : List Byte) (p : Vector Byte 7) (k i : Nat) (hi : i < 7) :
    (storePend p k bs).getD i 0 = if k ≤ i ∧ i < k + bs.length then bs.getD (i - k) 0 else p.getD i 0 := by
  induction bs generalizing p k with
  | nil =>
    have : ¬ (k ≤ i ∧ i < k + 0) := by omega
    simp only [storePend, List.length_nil, if_neg this]
  | cons b bs ih =>
    rw [storePend, ih, List.length_cons]
    by_cases h1 : k = i
    · have h2 : ¬ (k + 1 ≤ i ∧ i < k + 1 + bs.length) := by omega
      have h3 : k ≤ i ∧ i < k + (bs.length + 1) := by omega
      have h4 : i - k = 0 := by omega
      rw [if_neg h2, if_pos h3, h4]
      simp [Vector.getD, hi, h1]
    · by_cases h2 : k + 1 ≤ i ∧ i < k + 1 + bs.length
      · have h3 : k ≤ i ∧ i < k + (bs.length + 1) := by omega
        have h4 : i - k = (i - (k + 1)) + 1 := by omega
        rw [if_pos h2, if_pos h3, h4]
        simp
      · have h3 : ¬ (k ≤ i ∧ i < k + (bs.length + 1)) := by omega
        rw [if_neg h2, if_neg h3]
        simp [Vector.getD, hi, h1]

/-- The pending bytes, read through PEND. -/
theorem pendingBytes_getD (s : State) (i : Nat) (h : i < s.pendCnt.toNat) : s.pendingBytes.getD i 0 = s.pend.getD i 0 := by
  have h7 : i < 7 := by have := s.pendCnt.isLt; omega
  simp [State.pendingBytes, Vector.getD, h7, h]

theorem pendingBytes_length (s : State) : s.pendingBytes.length = s.pendCnt.toNat := by
  have := s.pendCnt.isLt
  simp only [State.pendingBytes, List.length_take, Vector.length_toList]
  omega

/-- The bytes a full block leaves behind are the pending ones. -/
theorem pendingBytes_closeBlock (rest : List Byte) (s : State) (h : rest.length ≤ 7) :
    (closeBlock rest s).pendingBytes = rest := by
  apply List.ext_getElem
  · rw [pendingBytes_length]; simp [closeBlock]; omega
  · intro i h1 h2
    have h3 : i < (closeBlock rest s).pendCnt.toNat := by rwa [pendingBytes_length] at h1
    have h4 := pendingBytes_getD (closeBlock rest s) i h3
    have h5 : i < 7 := by omega
    rw [List.getD_eq_getElem _ _ h1] at h4
    rw [h4]
    simp only [closeBlock, State.startPermutation_pend, State.setPendCnt_pend, State.setPend_pend]
    rw [storePend_getD _ _ _ _ h5, if_pos (by omega), Nat.sub_zero, List.getD_eq_getElem _ _ h2]

/-! ### SQUEEZE -/

theorem squeezeEffect_within (s : State) (h : s.sq.toNat ≠ 16) :
    squeezeEffect s = (s.setResult (lane s.lanes s.sq.toNat)).setSq (s.sq.toNat + 1) := by
  have : ¬ s.sq.toNat + 1 = rateLanes := by simp only [rateLanes]; omega
  simp only [squeezeEffect, if_neg this]

theorem squeezeEffect_last (s : State) (h : s.sq.toNat = 16) :
    squeezeEffect s = ((s.setResult (lane s.lanes 16)).setSq 0).startPermutation := by
  have : s.sq.toNat + 1 = rateLanes := by rw [h]
  simp only [squeezeEffect, if_pos this]
  rw [h]

/-! ### What the sponge commands keep -/

/-- The two cases of ABSORB: its bytes fit below the block's end, or they reach it (R136). -/
theorem absorb_cases (n : Nat) (d : DataWord) (s : State) (hp : s.pos.toNat < 136) :
   (s.pos.toNat + n < 136 ∧ absorbEffect n d s = (s.setLanes (xorBytes s.lanes s.pos.toNat (wordBytes d 0 n))).setPos (s.pos.toNat + n)) ∨
   (136 ≤ s.pos.toNat + n ∧ absorbEffect n d s = closeBlock (wordBytes d (136 - s.pos.toNat) (s.pos.toNat + n - 136))
        (s.setLanes (xorBytes s.lanes s.pos.toNat (wordBytes d 0 (136 - s.pos.toNat))))) := by
  by_cases h : s.pos.toNat + n < 136
  · exact .inl ⟨h, absorbEffect_within _ _ _ h⟩
  · exact .inr ⟨by omega, absorbEffect_full _ _ _ (by omega) (by omega)⟩

/-- ABSORB leaves the capacity lanes (R21). -/
theorem absorbEffect_capacity (n : Nat) (d : DataWord) (s : State) (hp : s.pos.toNat < 136) : ∀ i, rateLanes ≤ i → i < nLanes →
    lane (absorbEffect n d s).lanes i = lane s.lanes i := by
  intro i h1 _
  simp only [rateLanes] at h1
  by_cases hf : s.pos.toNat + n < 136
  · rw [absorbEffect_within _ _ _ hf]
    exact lane_xorBytes_of_le _ _ _ _ (by simp; omega)
  · rw [absorbEffect_full _ _ _ (by omega) (by omega)]
    exact lane_xorBytes_of_le _ _ _ _ (by simp; omega)

/-- FINAL leaves the capacity lanes (R21). -/
theorem finalEffect_capacity (s : State) (hp : s.pos.toNat < 136) : ∀ i, rateLanes ≤ i → i < nLanes →
    lane (finalEffect s).lanes i = lane s.lanes i := by
  intro i h1 _
  simp only [rateLanes] at h1
  simp only [finalEffect, State.startPermutation_lanes, State.setPos_lanes, State.setSq_lanes, State.setPhase_lanes, State.setLanes_lanes]
  rw [lane_xorSb_ne _ _ _ (by simp only [rate]; omega), lane_xorSb_ne _ _ _ (by omega)]

/-- The bytes of a data operand, cut at a byte. -/
theorem wordBytes_take_drop (d : DataWord) (n k : Nat) (h : k ≤ n) : (wordBytes d 0 n).take k = wordBytes d 0 k ∧ (wordBytes d 0 n).drop k = wordBytes d k (n - k) := by
  have : wordBytes d 0 n = wordBytes d 0 k ++ wordBytes d k (n - k) := by
    rw [show n = k + (n - k) by omega, wordBytes_append]; simp
  rw [this]
  constructor
  · rw [List.take_append_of_le_length (by simp), List.take_of_length_le (by simp)]
  · rw [List.drop_append_of_le_length (by simp), List.drop_of_length_le (by simp)]; rfl

end Sys2Proof.Machine
end

