-- ==== Sys2Proof/Laws/Keccak256.lean ====
section
/-! SUPPORT. The function keccak256 and the bytes the assembler carries: lengths, prefixes, and blocks in sequence. -/

namespace Sys2Proof.Machine

open Sys2Proof.Config

/-! ### Padding and absorbing -/

/-- The last byte of a list modified. -/
theorem modify_append_last (X : List Byte) (b : Byte) (f : Byte → Byte) : (X ++ [b]).modify X.length f = X ++ [f b] := by
  induction X with
  | nil => rfl
  | cons x X ih => simp [ih]

theorem blockAt_append (m x : List Byte) (i : Nat) (h : 136 * (i + 1) ≤ m.length) : blockAt (m ++ x) i = blockAt m i := by
  simp only [blockAt, rate]
  rw [List.drop_append_of_le_length (by omega), List.take_append_of_le_length (by simp; omega)]

theorem absorbBlocks_succ (p : List Byte) (k : Nat) : absorbBlocks p (k + 1) = absorbBlock (absorbBlocks p k) (blockAt p k) := by
  simp [absorbBlocks, List.range_succ]

/-- The blocks of a message do not depend on what follows them. -/
theorem absorbBlocks_append (m x : List Byte) (k : Nat) (h : 136 * k ≤ m.length) : absorbBlocks (m ++ x) k = absorbBlocks m k := by
  induction k with
  | zero => simp [absorbBlocks]
  | succ k ih => rw [absorbBlocks_succ, absorbBlocks_succ, ih (by omega), blockAt_append m x k h]

/-! ### Squeezing -/

theorem rateBytes_length (a : Lanes) : (rateBytes a).length = 136 := by simp [rateBytes]

theorem squeezeBlocks_length (k : Nat) (a : Lanes) : (squeezeBlocks a k).length = 136 * k := by
  induction k generalizing a with
  | zero => rfl
  | succ k ih => simp [squeezeBlocks, ih, rateBytes_length]; omega

/-- A prefix of the output does not depend on how many blocks are squeezed. -/
theorem squeezeBlocks_take (k j : Nat) (a : Lanes) (p : Nat) (h1 : p ≤ 136 * k) (h2 : p ≤ 136 * j) :
    (squeezeBlocks a k).take p = (squeezeBlocks a j).take p := by
  induction k generalizing a p j with
  | zero => have : p = 0 := by omega
            subst this; simp
  | succ k ih =>
    cases j with
    | zero => have : p = 0 := by omega
              subst this; simp
    | succ j =>
      simp only [squeezeBlocks, List.take_append, rateBytes_length]
      rw [ih j _ (p - 136) (by omega) (by omega)]

/-! ### Little-endian numbers -/

theorem littleEndian_byte (l : List Byte) (t : Nat) : littleEndian l / 256 ^ t % 256 = (l.getD t 0).toNat := by
  induction l generalizing t with
  | nil => simp [littleEndian]
  | cons b l ih =>
    have hb := b.isLt
    cases t with
    | zero => simp [littleEndian]; omega
    | succ t =>
      simp only [littleEndian, List.getD_cons_succ]
      rw [← ih t, pow_succ', ← Nat.div_div_eq_div_mul]
      congr 2; omega

theorem wordByte_littleEndian (l : List Byte) (t : Nat) (ht : t < 8) : wordByte (BitVec.ofNat 64 (littleEndian l)) t = l.getD t 0 := by
  apply BitVec.eq_of_toNat_eq
  rw [wordByte_toNat, ← littleEndian_byte]
  simp only [BitVec.toNat_ofNat]
  have e : (2:Nat) ^ (8 * t) = 256 ^ t := by rw [show (256:Nat) = 2^8 from rfl, ← pow_mul]
  have e2 : (2:Nat) ^ 64 = 256 ^ t * (256 * 256 ^ (7 - t)) := by
    rw [show 256 * 256 ^ (7 - t) = 256 ^ (7 - t + 1) from (pow_succ' _ _).symm, ← pow_add, show t + (7 - t + 1) = 8 by omega]; rfl
  rw [e, e2, Nat.mod_mul_right_div_self, Nat.mod_mul_right_mod]

/-- The bytes ABSORB reads from a chunk's number are the chunk (R53, R81). -/
theorem messageBytes_littleEndian (l : List Byte) (h : l.length ≤ 8) : messageBytes l.length (BitVec.ofNat 64 (littleEndian l)) = l := by
  apply List.ext_getElem?
  intro i
  by_cases hi : i < l.length
  · have h1 := wordBytes_getD (BitVec.ofNat 64 (littleEndian l)) 0 l.length i hi
    rw [Nat.zero_add, wordByte_littleEndian _ _ (by omega)] at h1
    simp only [List.getD_eq_getElem?_getD] at h1
    unfold messageBytes
    rw [List.getElem?_eq_getElem (by simpa using hi), List.getElem?_eq_getElem hi] at h1 ⊢
    simpa using h1
  · rw [List.getElem?_eq_none (by simp [messageBytes]; omega), List.getElem?_eq_none (by omega)]

/-- The chunks of 8 bytes in order are the message. -/
theorem flatMap_chunks (m : List Byte) (n : Nat) : (List.range n).flatMap (fun k => (m.drop (8 * k)).take 8) = m.take (8 * n) := by
  induction n with
  | zero => simp
  | succ n ih =>
    rw [List.range_succ, List.flatMap_append, ih]
    simp only [List.flatMap_cons, List.flatMap_nil, List.append_nil]
    rw [Nat.mul_succ, List.take_add]

end Sys2Proof.Machine
end

