-- ==== Sys2Proof/Laws/Status.lean ====
section
/-! SUPPORT. The bits of STATUS, and its fields as the bits of one flag. -/

namespace Sys2Proof.Machine

open Sys2Proof.Config

/-- STATUS bit by bit, from bit 0 up (R34). -/
theorem statusWord_getLsbD (s : State) (k : Nat) :
    s.statusWord.getLsbD k =
      if k < 1 then (flagBit s.busy).getLsbD k
      else if k - 1 < 1 then s.phase.bit.getLsbD (k - 1)
      else if k - 2 < 1 then (flagBit s.err).getLsbD (k - 2)
      else if k - 3 < 1 then (flagBit s.params.laneAccess).getLsbD (k - 3)
      else if k - 4 < 3 then s.cause.getLsbD (k - 4)
      else if k - 7 < 1 then false
      else if k - 8 < 8 then s.pos.getLsbD (k - 8)
      else if k - 16 < 5 then s.sq.getLsbD (k - 16)
      else if k - 21 < 3 then false
      else if k - 24 < 5 then s.round.getLsbD (k - 24)
      else s.pendCnt.getLsbD (k - 29) := by
  show BitVec.getLsbD (w := 3 + 5 + 3 + 5 + 8 + 1 + 3 + 1 + 1 + 1 + 1)
    (s.pendCnt ++ s.round ++ (0 : BitVec 3) ++ s.sq ++ s.pos ++ (0 : BitVec 1) ++ s.cause
      ++ flagBit s.params.laneAccess ++ flagBit s.err ++ s.phase.bit ++ flagBit s.busy) k = _
  simp only [BitVec.getLsbD_append, Nat.sub_sub]
  simp

/-- A flag's bit is 1 where the flag is set. -/
theorem flagBit_eq (b : Bool) : flagBit b = if b = true then 1 else 0 := by cases b <;> rfl

/-- PHASE's bit is 1 in SQUEEZE (R23). -/
theorem phaseBit_eq (p : Phase) : p.bit = if p = .squeeze then 1 else 0 := by cases p <;> rfl

end Sys2Proof.Machine
end

