-- ==== Sys2Proof/Laws/Step.lean ====
section
/-! SUPPORT. Everything one step of the machine can do, said once (`StepCase`), and the steps that are forced. -/

namespace Sys2Proof.Machine

open Sys2Proof.Config

/-! ### Who moves -/

@[simp] theorem takeTurn_fields (s : State) :
    s.takeTurn.params = s.params ∧ s.takeTurn.lanes = s.lanes ∧ s.takeTurn.phase = s.phase ∧ s.takeTurn.pos = s.pos ∧
    s.takeTurn.sq = s.sq ∧ s.takeTurn.busy = s.busy ∧ s.takeTurn.round = s.round ∧ s.takeTurn.pendCnt = s.pendCnt ∧
    s.takeTurn.pend = s.pend ∧ s.takeTurn.err = s.err ∧ s.takeTurn.cause = s.cause ∧ s.takeTurn.result = s.result ∧
    s.takeTurn.rst = s.rst ∧ s.takeTurn.program = s.program ∧ s.takeTurn.pc = s.pc ∧
    s.takeTurn.observed = s.observed := by
  unfold State.takeTurn
  split <;> simp

@[simp] theorem takeTurn_statusWord (s : State) : s.takeTurn.statusWord = s.statusWord := by
  simp [State.statusWord]

@[simp] theorem takeTurn_resultPort (s : State) : s.takeTurn.resultPort = s.resultPort := by
  simp [State.resultPort]

@[simp] theorem takeTurn_currentAction (s : State) : s.takeTurn.currentAction = s.currentAction := by
  simp [State.currentAction]

theorem takeTurn_of_not_contended {s : State} (h : s.contended = false) : s.takeTurn = s := by
  simp [State.takeTurn, h]

/-- Where the engine may move, no command is accepted (R20). -/
theorem engineEnabled_of_cmdReady {s : State} (h : s.cmdReady = true) : s.engineEnabled = false := by
  rw [cmdReady_iff] at h
  simp [State.engineEnabled, h.1]

theorem nextAgent_host_of_idle_engine {s : State} (h1 : s.hostEnabled = true) (h2 : s.engineEnabled = false) :
    s.nextAgent = some .host ∧ s.takeTurn = s := by
  simp [State.nextAgent, State.takeTurn, State.contended, h1, h2]

theorem nextAgent_engine_of_held_host {s : State} (h1 : s.hostEnabled = false) (h2 : s.engineEnabled = true) :
    s.nextAgent = some .engine ∧ s.takeTurn = s := by
  simp [State.nextAgent, State.takeTurn, State.contended, h1, h2]

/-- The host moves only where its action is enabled. -/
theorem hostEnabled_of_nextAgent {s : State} (h : s.nextAgent = some .host) : s.hostEnabled = true := by
  unfold State.nextAgent State.contended at h
  cases h1 : s.hostEnabled <;> cases h2 : s.engineEnabled <;> simp_all

/-- The engine moves only where BUSY = 1 and `rst = 0` (R20, R200). -/
theorem engineEnabled_of_nextAgent {s : State} (h : s.nextAgent = some .engine) : s.engineEnabled = true := by
  unfold State.nextAgent State.contended at h
  cases h1 : s.hostEnabled <;> cases h2 : s.engineEnabled <;> simp_all

/-! ### Everything a step can do -/

/-- What a step from `s` leads to. -/
inductive StepCase (s : State) : State → Prop where
  /-- Neither agent may move. -/
  | idle (h : s.nextAgent = none) : StepCase s s
  /-- The engine applies one round. -/
  | engine (h : s.nextAgent = some .engine) : StepCase s (engineStep s.takeTurn)
  /-- An accepted command raises a cause. -/
  | raised (c : Command) (k : Cause) (ha : s.currentAction = some (.command c)) (hr : s.cmdReady = true) :
      StepCase s (s.raise k).advancePc
  /-- An accepted command executes. -/
  | executed (c : Command) (i : Instr) (ha : s.currentAction = some (.command c)) (hr : s.cmdReady = true)
      (hd : decode s.params.laneAccess c = .ok i) (he : s.executes i = true) : StepCase s (effectOf i s).advancePc
  /-- The host reads a port. -/
  | read (o : Observation) (h : s.nextAgent = some .host) : StepCase s (s.takeTurn.observe o).advancePc
  /-- WAIT_IDLE finds BUSY = 0. -/
  | waited (h : s.nextAgent = some .host) (hb : s.busy = false) : StepCase s s.takeTurn.advancePc
  /-- The host pulses `rst`, or drives it to 1. -/
  | reset (level : Bool) (h : s.stepResets) : StepCase s (s.takeTurn.applyReset.setRst level).advancePc
  /-- The host lets `rst` fall. -/
  | released (h : s.nextAgent = some .host) : StepCase s (s.takeTurn.setRst false).advancePc

/-- Every step answers a next state, and that state is one of the cases (R180, R184). -/
theorem step_cases (s : State) : ∃ t, step s = .next t ∧ StepCase s t := by
  unfold step agentStep
  cases hn : s.nextAgent with
  | none => exact ⟨s, rfl, .idle hn⟩
  | some a =>
    cases a with
    | engine => exact ⟨_, rfl, .engine hn⟩
    | host =>
      have he := hostEnabled_of_nextAgent hn
      simp only [hostStep, takeTurn_currentAction]
      cases ha : s.currentAction with
      | none => simp [State.hostEnabled, ha] at he
      | some act =>
        cases act with
        | command c =>
          have hr : s.cmdReady = true := by simpa [State.hostEnabled, ha] using he
          have ht : s.takeTurn = s :=
            takeTurn_of_not_contended (by simp [State.contended, engineEnabled_of_cmdReady hr])
          simp only [ht]
          rcases runCommand_cases c hr with ⟨k, hk⟩ | ⟨i, hd, hx, hk⟩
          · exact ⟨_, by rw [hk]; rfl, .raised c k ha hr⟩
          · exact ⟨_, by rw [hk]; rfl, .executed c i ha hr hd hx⟩
        | rdStatus => exact ⟨_, rfl, .read _ hn⟩
        | rdResult => exact ⟨_, rfl, .read _ hn⟩
        | waitIdle =>
          have hb : s.busy = false := by simpa [State.hostEnabled, ha] using he
          exact ⟨_, rfl, .waited hn hb⟩
        | reset => exact ⟨_, rfl, .reset false ⟨hn, .inl ha⟩⟩
        | driveRst level =>
          cases level with
          | true => exact ⟨_, rfl, .reset true ⟨hn, .inr ha⟩⟩
          | false => exact ⟨_, rfl, .released hn⟩

/-- The inversion the invariants cite. -/
theorem step_case {s t : State} (h : step s = .next t) : StepCase s t := by
  obtain ⟨u, hu, hc⟩ := step_cases s
  rw [hu] at h
  cases h
  exact hc

/-! ### Steps that are forced -/

/-- An offered command that can be accepted is run by the very next step, and `pc` moves on. -/
theorem step_command {s : State} {c : Command} (ha : s.currentAction = some (.command c)) (hr : s.cmdReady = true) :
    step s = mapNext State.advancePc (runCommand c s) := by
  have hh : s.hostEnabled = true := by simp [State.hostEnabled, ha, hr]
  obtain ⟨h1, h2⟩ := nextAgent_host_of_idle_engine hh (engineEnabled_of_cmdReady hr)
  simp [step, agentStep, h1, h2, hostStep, ha]

/-- While a permutation runs and the host is held, the step is the engine's. -/
theorem step_engine {s : State} (hh : s.hostEnabled = false) (he : s.engineEnabled = true) :
    step s = .next (engineStep s) := by
  obtain ⟨h1, h2⟩ := nextAgent_engine_of_held_host hh he
  simp [step, agentStep, h1, h2]

/-- The next state of a step is one state. -/
theorem next_unique {s t u : State} (h : step s = .next t) (h' : step s = .next u) : t = u := by
  rw [h] at h'; cases h'; rfl

/-- The step of a command that executes is its effect, with `pc` moved on. -/
theorem step_of_executes {s : State} {i : Instr} (h : s.stepExecutes i) : step s = .next (effectOf i s).advancePc := by
  obtain ⟨c, h1, h2, h3, h4⟩ := h
  rw [step_command h1 h2, runCommand_of_ok h3, exec_executes h2 h4]; rfl

/-- The step that asserts reset. -/
theorem step_of_resets {s : State} (h : s.stepResets) : ∃ l, step s = .next (s.takeTurn.applyReset.setRst l).advancePc ∧ (l = true ↔ s.currentAction = some (.driveRst true)) := by
  obtain ⟨h1, h2⟩ := h
  unfold step agentStep
  rw [h1]
  simp only [hostStep, takeTurn_currentAction]
  rcases h2 with h2 | h2 <;> rw [h2]
  · exact ⟨false, rfl, by simp⟩
  · exact ⟨true, rfl, by simp⟩

/-- A host with an action left has `pc` below the length of its list. -/
theorem pc_lt_of_currentAction {s : State} (h : s.currentAction ≠ none) : s.pc < s.program.length := by
  by_contra hc; exact h (List.getElem?_eq_none (by omega))

/-- The host moves only where it has an action left. -/
theorem currentAction_of_nextAgent {s : State} (h : s.nextAgent = some .host) : s.currentAction ≠ none := by
  intro hn; have := hostEnabled_of_nextAgent h; simp [State.hostEnabled, hn] at this

/-! ### Runs of several steps -/

theorem runSteps_succ (k : Nat) (s t : State) (h : step s = .next t) : runSteps (k + 1) s = runSteps k t := by
  have : Sys2Proof.core.step s = .next t := h
  simp only [runSteps, Host.Core.run, this]
  rfl

theorem runSteps_add (j k : Nat) (s t : State) (h : runSteps j s = .next t) : runSteps (j + k) s = runSteps k t := by
  induction j generalizing s with
  | zero =>
    have : Host.Outcome.next s = .next t := h
    cases this; rw [Nat.zero_add]
  | succ j ih =>
    obtain ⟨u, hu, -⟩ := step_cases s
    rw [runSteps_succ j s u hu] at h
    rw [Nat.succ_add, runSteps_succ _ s u hu, ih u h]

/-- While the host is held, the run is the engine's steps (R204, R209). -/
theorem runSteps_engine (k : Nat) (s : State) (hb : s.busy = true) (hr : s.rst = false) (hround : s.round.toNat + k ≤ 24)
    (hheld : ∀ u : State, u.busy = true → u.currentAction = s.currentAction → u.hostEnabled = false) :
    runSteps k s = .next (engineSteps k s) := by
  induction k generalizing s with
  | zero => rfl
  | succ k ih =>
    have hs : step s = .next (engineStep s) := step_engine (hheld s hb rfl) (by simp [State.engineEnabled, hb, hr])
    rw [runSteps_succ _ _ _ hs]
    have hf := engineStep_frame s
    have hact : (engineStep s).currentAction = s.currentAction := by simp [State.currentAction, hf]
    by_cases h23 : s.round.toNat = 23
    · have : k = 0 := by omega
      subst this; rfl
    · rw [engineSteps]
      apply ih
      · rw [(engineStep_busy h23).1, hb]
      · rw [hf.2.2.2.2.2.2.2.1, hr]
      · rw [engineStep_round h23]; simp; omega
      · intro u hu hua; exact hheld u hu (by rw [hua, hact])

/-- The host's next action, read off the rest of its list. -/
theorem currentAction_of_drop {s : State} {a : HostAction} {l} (h : s.program.drop s.pc = a :: l) : s.currentAction = some a ∧ s.program.drop (s.pc + 1) = l := by
  constructor
  · have := congrArg (·[0]?) h
    simpa [State.currentAction] using this
  · rw [← List.drop_drop, h]; rfl

end Sys2Proof.Machine
end

