-- ==== Sys2Proof/Tests/Slice0.lean ====
section
/-! SUPPORT. Tests of single steps against the spec's own vectors and worked encodings, and, for every statement with
hypotheses, a concrete state and operands that meet them. Each test names its source in spec/. -/

namespace Sys2Proof.Tests

open Sys2Proof.Config Sys2Proof.Machine

/-! ### Small states -/

/-- The reset state with `LANE_ACCESS = 1`. -/
def ready : State := State.reset

/-- The reset state with `LANE_ACCESS = 0`. -/
def readyPlain : State := State.resetWith ⟨false, 1⟩

/-- An idle engine in SQUEEZE phase. -/
def squeezing : State := { ready with phase := .squeeze }

/-- A permutation at a round. -/
def permuting (r : BitVec 5) : State := { ready with busy := true, round := r }

/-- A permutation at a round, with pending bytes. -/
def permutingWith (pending : BitVec 3) (r : BitVec 5) : State := { permuting r with pendCnt := pending }

/-- The host's next action is `a`. -/
def facing (a : HostAction) (s : State) : State := { s with program := [a], pc := 0 }

/-- The next state, where there is one. -/
def nextOf (s : State) : Host.Outcome State Fault Refusal → State
  | .next t => t
  | _       => s

/-- One instruction executed. -/
def ran (i : Instr) (s : State) : State := nextOf s (exec i s)

/-- One word on the port. -/
def offeredWord (w : CmdWord) (s : State) : State := nextOf s (runCommand ⟨w, 0⟩ s)

/-- One step. -/
def stepped (s : State) : State := nextOf s (step s)

/-- The lanes `A[i] = i` of vector P3. -/
def countingLanes : Lanes := Vector.ofFn fun i : Fin 25 => BitVec.ofNat 64 i

/-! ### WellFormed refuses each ill-formed term (R73) -/

theorem test_wf_absorb_zero_bytes : (Instr.absorb 0 0).wf = false := by decide
theorem test_wf_absorb_nine_bytes : (Instr.absorb 9 0).wf = false := by decide
theorem test_wf_load_lane_25 : (Instr.loadLane 25 0).wf = false := by decide
theorem test_wf_read_lane_25 : (Instr.readLane 25).wf = false := by decide
theorem test_wf_bounds : (Instr.absorb 1 0).wf ∧ (Instr.absorb 8 0).wf ∧ (Instr.loadLane 0 0).wf ∧ (Instr.loadLane 24 0).wf ∧
    (Instr.readLane 24).wf ∧ Instr.init.wf ∧ Instr.final.wf ∧ Instr.squeeze.wf ∧ Instr.permute.wf := by decide

/-! ### Decoding of words written bit by bit: OPC, RSV, ARG (R70, R75) -/

theorem test_decode_init : decode false ⟨0b00010000000000000000000000000000, 7⟩ = .ok .init := by decide
theorem test_decode_absorb : decode false ⟨0b00100000000000000000000000001000, 0x6369757120656854⟩ =
    .ok (.absorb 8 0x6369757120656854) := by decide
theorem test_decode_final : decode false ⟨0b00110000000000000000000000000000, 0⟩ = .ok .final := by decide
theorem test_decode_squeeze : decode false ⟨0b01000000000000000000000000000000, 0⟩ = .ok .squeeze := by decide
theorem test_decode_permute : decode false ⟨0b01010000000000000000000000000000, 0⟩ = .ok .permute := by decide
theorem test_decode_load_lane : decode true ⟨0b01100000000000000000000000011000, 0x18⟩ = .ok (.loadLane 24 0x18) := by decide
theorem test_decode_read_lane : decode true ⟨0b01110000000000000000000000010000, 0⟩ = .ok (.readLane 16) := by decide
/-- R77, E3–E14: illegal opcodes; RSV not 0; ARG out of range. -/
theorem test_decode_illegal :
    (([0x00000000, 0x80000000, 0xF0000000, 0xFFFFFFFF] : List CmdWord).all fun w => decode true ⟨w, 0⟩ = .error .illegalOpcode) ∧
    (([0x60000000, 0x70000000] : List CmdWord).all fun w => decode false ⟨w, 0⟩ = .error .illegalOpcode) ∧
    (([0x10000001, 0x1000001F, 0x20000000, 0x20000009, 0x2000000F, 0x20000023, 0x50000001, 0x60000019, 0x7000001F, 0x40000100,
      0x30000020, 0x18000000] : List CmdWord).all fun w => decode true ⟨w, 0⟩ = .error .illegalField) := by decide +kernel
/-- R75: the opcode map's words for `n = 3` and `i = 16`. -/
theorem test_encode : encode (.absorb 3 0x636261) = ⟨0x20000003, 0x636261⟩ ∧ encode (.readLane 16) = ⟨0x70000010, 0⟩ := by
  decide +kernel
/-- The opcode table's numbering: bits 31 to 0 are the word, DATA is 0. -/
theorem test_table_word : decodeTableWord 32 0x20000001 = some (.absorb 1 0) ∧ decodeTableWord 32 0x70000018 = some (.readLane 24) ∧
    decodeTableWord 32 0x20000000 = none := by decide +kernel
/-- A placed word is run by the very next step after reset: PERMUTE, vector P1's STATUS. -/
theorem test_fetch_word : (stepped (State.reset.withFetchWord 32 0x50000000)).statusWord = 0x00000009 := by decide

/-! ### STATUS and reset (R34, R36, RS1, RS2) -/

theorem test_status_after_reset : State.reset.statusWord = 0x00000008 ∧ readyPlain.statusWord = 0x00000000 := by decide
/-- The example word of 95_test_vectors.md: `0xA0000009` is PEND_CNT 5, BUSY 1, LANE_ACCESS 1. -/
theorem test_status_fields : State.statusWord { permuting 0 with pendCnt := 5 } = 0xA0000009 := by decide
/-- RS2: reset in the middle of a permutation. -/
theorem test_reset_abandons_permutation :
    (permuting 1).statusWord = 0x01000009 ∧ (stepped { facing .reset (permuting 1) with schedule := [.host] }).statusWord = 0x00000008 := by decide

/-! ### The permutation (P0, P1, P3) -/

theorem test_rotl : rotl 0x8000000000000001 1 = 0x3 ∧ rotl 0x1A 0 = 0x1A ∧ rotl 0x0E 44 = 0x0000E00000000000 := by decide
/-- R104, R107: the tables are those their generation rules give (R113, check 1). -/
theorem test_tables_follow_their_rules : (List.range 24).map rc = (List.range 24).map generatedRc ∧
    (List.range 24).map (fun t => rot (walk t).1 (walk t).2) = (List.range 24).map walkOffset := by decide +kernel
/-- P0. -/
theorem test_round_of_zero : lane (rnd zeroLanes 0) 0 = 1 ∧ lane (rnd zeroLanes 0) 1 = 0 := by decide +kernel
/-- P3: theta, rho with pi, and chi of round 0 on `A[i] = i`, a row of each. -/
theorem test_theta : (List.range 5).map (lane (theta countingLanes)) = [0x1A, 0x9, 0xD, 0x1D, 0x2F] := by decide +kernel
theorem test_rho_pi : (List.range 5).map (lane (rhoPi (theta countingLanes))) =
    [0x1A, 0x0000E00000000000, 0x0000180000000000, 0x1800000, 0xCC000] := by decide +kernel
theorem test_chi : (List.range 5).map (lane (chi (rhoPi (theta countingLanes)))) =
    [0x000018000000001A, 0x0000E00001800000, 0x00001800000CC000, 0x180001A, 0x0000E000000CC000] := by decide +kernel
theorem test_iota_and_round_1 : lane (rnd countingLanes 0) 0 = 0x000018000000001B ∧
    lane (rnd (rnd countingLanes 0) 1) 0 = 0x7607DE48094DB55E := by decide +kernel
/-- R109: the engine step counts its rounds and ends after round 23 with the pending bytes in place (V9's numbers). -/
theorem test_engine_step_counts : (engineStep (permuting 1)).statusWord = 0x02000009 := by decide +kernel
theorem test_engine_step_ends : (engineStep { permuting 23 with pendCnt := 5 }).statusWord = 0x00000508 := by decide +kernel

/-! ### The commands -/

/-- E22: INIT clears a sticky error. -/
theorem test_init_clears_error : (ran .init { ready with err := true, cause := 3, pos := 7, result := 5 }).statusWord = 0x00000008 := by decide
/-- R136's example. -/
theorem test_absorb_abc : (ran (.absorb 3 0x636261) ready).statusWord = 0x00000308 ∧
    lane (ran (.absorb 3 0x636261) ready).lanes 0 = 0x636261 := by decide
/-- R136's example at POS = 133, V9. -/
theorem test_absorb_past_block : (ran (.absorb 8 0x1122334455667788) { ready with pos := 133 }).statusWord = 0xA0000009 ∧
    lane (ran (.absorb 8 0x1122334455667788) { ready with pos := 133 }).lanes 16 = 0x6677880000000000 ∧
    (ran (.absorb 8 0x1122334455667788) { ready with pos := 133 }).pend.toList.take 5 = [0x55, 0x44, 0x33, 0x22, 0x11] := by decide
/-- R137's example. -/
theorem test_final_abc : (ran .final { ready with pos := 3 }).statusWord = 0x0000000B ∧
    lane (ran .final { ready with pos := 3 }).lanes 0 = 0x01000000 ∧
    lane (ran .final { ready with pos := 3 }).lanes 16 = 0x8000000000000000 := by decide
/-- V3: both padding bits in byte 135. -/
theorem test_final_at_135 : lane (ran .final { ready with pos := 135 }).lanes 16 = 0x8100000000000000 := by decide
/-- PROG7's rows k = 0 and k = 16: SQ moves on, and the 17th SQUEEZE starts a permutation. -/
theorem test_squeeze_first : (ran .squeeze squeezing).statusWord = 0x0001000A := by decide
theorem test_squeeze_seventeenth : (ran .squeeze { squeezing with sq := 16, lanes := countingLanes }).statusWord = 0x0000000B ∧
    (ran .squeeze { squeezing with sq := 16, lanes := countingLanes }).result = 16 := by decide
/-- P5: PERMUTE keeps POS, PHASE and SQ. -/
theorem test_permute_keeps_pos : (ran .permute { ready with pos := 5 }).statusWord = 0x00000509 := by decide
theorem test_permute_keeps_sq : (ran .permute { squeezing with sq := 1 }).statusWord = 0x0001000B := by decide
/-- R160's example, and E13's cause. -/
theorem test_load_lane_24 : lane (ran (.loadLane 24 0x18) ready).lanes 24 = 0x18 := by decide
theorem test_load_lane_absent : (ran (.loadLane 0 1) readyPlain).statusWord = 0x00000014 := by decide
/-- R161: RESULT and nothing else. -/
theorem test_read_lane : (ran (.readLane 24) { squeezing with lanes := countingLanes, sq := 3 }).result = 24 ∧
    (ran (.readLane 24) { squeezing with lanes := countingLanes, sq := 3 }).sq = 3 := by decide

/-! ### Errors (E1–E23) -/

theorem test_error_causes : (offeredWord 0x00000000 ready).statusWord = 0x0000001C ∧ (offeredWord 0x20000009 ready).statusWord = 0x0000002C ∧
    (offeredWord 0x40000000 ready).statusWord = 0x0000003C ∧ (offeredWord 0x40000001 ready).statusWord = 0x0000002C ∧
    (offeredWord 0x20000001 squeezing).statusWord = 0x0000003E ∧ (offeredWord 0x30000000 squeezing).statusWord = 0x0000003E ∧
    (offeredWord 0x30000001 squeezing).statusWord = 0x0000002E := by decide
/-- E21: the first cause is kept. -/
theorem test_first_cause_kept : (offeredWord 0x00000000 { ready with err := true, cause := 3 }).statusWord = 0x0000003C := by decide
/-- E23: a command runs while ERR = 1. -/
theorem test_absorb_with_error : (ran (.absorb 3 0x636261) { ready with err := true, cause := 1 }).statusWord = 0x0000031C := by decide

/-! ### The host -/

/-- R204: a command offered while BUSY = 1 waits, and the step is the engine's. -/
theorem test_held_command : (stepped (facing (assemble .squeeze) (permuting 0))).pc = 0 ∧
    (stepped (facing (assemble .squeeze) (permuting 0))).round = 1 := by decide +kernel
/-- R206: a read goes on while a permutation runs, where the schedule lets the host move. -/
theorem test_read_while_busy : (stepped { facing .rdStatus (permuting 2) with schedule := [.host] }).observed =
    [.status 0x02000009] := by decide +kernel
/-- R80: lines of the assembler. -/
theorem test_lines : assembleLine "ABSORB 3, 0x636261 ; abc".toList = some [assemble (.absorb 3 0x636261)] ∧
    assembleLine "READ_LANE 16".toList = some [assemble (.readLane 16)] ∧ assembleLine "WAIT_IDLE".toList = some [.waitIdle] ∧
    assembleLine "; nothing".toList = some [] ∧ assembleLine "NOP".toList = none := by decide
/-- R81: HASH256 of "abc" is PROG1. -/
theorem test_hash256_program : hash256 [0x61, 0x62, 0x63] =
    [.command ⟨0x10000000, 0⟩, .command ⟨0x20000003, 0x636261⟩, .command ⟨0x30000000, 0⟩, .command ⟨0x40000000, 0⟩, .rdResult,
     .command ⟨0x40000000, 0⟩, .rdResult, .command ⟨0x40000000, 0⟩, .rdResult, .command ⟨0x40000000, 0⟩, .rdResult] := by decide
/-- V1: 135 bytes take one permutation and 136 take two. -/
theorem test_permutation_count : permutationCount (List.replicate 135 0) = 1 ∧ permutationCount (List.replicate 136 0) = 2 := by
  decide +kernel
/-- R211: a host program has ended at its length, with BUSY = 0. -/
theorem test_program_ended : ready.Ended ∧ ¬ (permuting 0).Ended ∧ ¬ (facing .rdStatus ready).Ended := by decide
/-- S2, S8: the source's own vector, rendered. -/
theorem test_keccak256_abc : renderDigest (keccak256 [0x61, 0x62, 0x63]) =
    "0x4e03657aea45a94fc7d47ba826c8d667c0d1e6e33a64a036ec44f58fa12d6c45" := by decide +kernel

/-! ### Witnesses: what each statement assumes is met by something

The states are `ready`, `readyPlain`, `squeezing` and `permuting r`, with one action before the host where a step is meant. -/

/-- Every step has a next state, the one `stepped` names. -/
theorem stepped_eq (s : State) : step s = .next (stepped s) := by
  obtain ⟨t, h, -⟩ := step_cases s
  simp [stepped, nextOf, h]

/-- The step of a host that offers the encoding of `i` executes `i`. -/
theorem facing_executes (i : Instr) (s : State) (hr : s.cmdReady = true) (hd : decode s.params.laneAccess (encode i) = .ok i)
    (he : s.executes i = true) : (facing (assemble i) s).stepExecutes i :=
  ⟨encode i, rfl, hr, hd, by cases i <;> exact he⟩

theorem witness_DecodeOfEncodeIsTheInstr :
    ((Instr.absorb 8 0).wf = true ∧ ((Instr.absorb 8 0).needsLaneAccess = true → false = true)) ∧
    ((Instr.loadLane 24 0).wf = true ∧ ((Instr.loadLane 24 0).needsLaneAccess = true → true = true)) := by decide
theorem witness_EachCommandHasItsWordsOnly : ∀ p ∈ [("INIT", 0x10000000#32), ("ABSORB", 0x20000001#32), ("ABSORB", 0x20000008#32),
    ("FINAL", 0x30000000#32), ("SQUEEZE", 0x40000000#32), ("PERMUTE", 0x50000000#32), ("LOAD_LANE", 0x60000018#32),
    ("READ_LANE", 0x70000000#32)], ∃ r ∈ opcodeTable, r.mnemonic = p.1 ∧ r.matchesWord p.2 = true := by decide +kernel
theorem witness_AcceptedCommandIsCheckedThenExecuted : ready.cmdReady = true ∧
    commandCause ready.params.laneAccess ready.phase 0x40000000 = some .wrongPhase ∧
    commandCause ready.params.laneAccess ready.phase 0x20000008 = none := by decide
theorem witness_DataIsReadByAbsorbAndLoadLaneAlone :
    ((0x70000000 : CmdWord).extractLsb' 28 4 ≠ 2 ∧ (0x70000000 : CmdWord).extractLsb' 28 4 ≠ 6) ∧
    (∀ t, t < (3 : BitVec 5).toNat → (0x11636261 : DataWord).extractLsb' (8 * t) 8 = (0x22636261 : DataWord).extractLsb' (8 * t) 8) ∧
    (ready.cmdReady = true ∧ ready.params.laneAccess = true ∧ (24 : BitVec 5).toNat ≤ 24) := by decide
theorem witness_StateBytesAreTheLanesLittleEndian : 199 < 200 ∧ 7 < 8 ∧ 24 < 25 := by decide
theorem witness_StateBytesReadBackWhatIsWritten : 192 + 8 ≤ 200 ∧ 7 < 8 ∧ (191 < 200 ∧ (191 < 192 ∨ 192 + 8 ≤ 191)) := by decide
theorem witness_LaneWordsCarryStateBytesInOrder :
    squeezing.cmdReady = true ∧ squeezing.params.laneAccess = true ∧ (24 : BitVec 5).toNat ≤ 24 ∧ 7 < 8 := by decide
theorem witness_InvariantHoldsAtReset : (⟨false, 1⟩ : Params).wf = true := by decide
theorem witness_EveryStepKeepsTheInvariant :
    (facing (assemble .init) ready).Inv ∧ step (facing (assemble .init) ready) = .next (stepped (facing (assemble .init) ready)) ∧
    (permuting 23).Inv ∧ step (permuting 23) = .next (stepped (permuting 23)) :=
  ⟨by decide, stepped_eq _, by decide, stepped_eq _⟩
theorem witness_RotlIsCircularLeftRotation : 63 < 64 ∧ 0 < 64 := by decide
theorem witness_RotationOffsetsFollowTheWalk : 4 < 5 ∧ 23 < 24 := by decide
theorem witness_RoundConstantsFollowTheLfsr : 23 < 24 ∧ 6 < 7 ∧ (62 < 64 ∧ 62 ∉ [0, 1, 3, 7, 15, 31, 63]) := by decide
theorem witness_ThetaXorsTheColumnParities :
    (∀ x, x < 5 → (fun x => lane countingLanes x ^^^ lane countingLanes (x + 5) ^^^ lane countingLanes (x + 10) ^^^
      lane countingLanes (x + 15) ^^^ lane countingLanes (x + 20)) x = lane countingLanes x ^^^ lane countingLanes (x + 5) ^^^
      lane countingLanes (x + 10) ^^^ lane countingLanes (x + 15) ^^^ lane countingLanes (x + 20)) ∧ 4 < 5 := ⟨fun _ _ => rfl, by decide⟩
theorem witness_RhoPiRotatesAndMovesEveryLane : 4 < 5 ∧ (4, (2 * 4 + 3 * 4) % 5) = (4, 0) := by decide
theorem witness_ChiCombinesTheRow : 4 < 5 := by decide
theorem witness_IotaXorsTheConstantIntoLaneZero : 1 ≤ 24 ∧ 24 < 25 := by decide
theorem witness_EngineStepAppliesOneRound :
    ((permuting 22).busy = true ∧ (permuting 22).rst = false ∧ (permuting 22).hostEnabled = false) ∧
    ((facing .rdStatus (permuting 22)).hostEnabled = true ∧
      (facing .rdStatus (permuting 22)).schedule.headD .engine = .engine) ∧
    ((facing .waitIdle (permuting 22)).nextAgent = some .engine) ∧
    ((permuting 22).Inv ∧ (permuting 22).round.toNat ≠ 23) ∧
    ((permutingWith 7 23).Inv ∧ (permutingWith 7 23).busy = true ∧ (permutingWith 7 23).round.toNat = 23) :=
  ⟨by decide, by decide, by decide, ⟨by decide, by decide⟩, by decide, by decide⟩
theorem witness_PermutationIsTwentyFourEngineSteps :
    ((permutingWith 7 0).Inv ∧ (permutingWith 7 0).busy = true ∧ (permutingWith 7 0).round = 0) ∧ (permuting 0).Inv ∧ (permuting 0).busy = true ∧ (permuting 0).round = 0 ∧
    (permuting 0).pendCnt = 0 := ⟨⟨by decide, by decide⟩, by decide, by decide⟩
theorem witness_PermuteStartsAPermutation : squeezing.cmdReady = true ∧ (0x50000001 : CmdWord).extractLsb' 28 4 = 5 := by decide
theorem witness_InitClearsTheEngine : squeezing.cmdReady = true ∧ (0x10000001 : CmdWord).extractLsb' 28 4 = 1 := by decide
theorem witness_InitGivesTheResetRegisters : State.Inv { ready with pos := 135 } ∧ ready.cmdReady = true := by decide
theorem witness_AbsorbXorsItsBytesAtPos :
    (State.pos { ready with pos := 128 }).toNat < 136 ∧ ready.cmdReady = true ∧ ready.phase = .absorb ∧
    128 + (7 : BitVec 5).toNat < 136 ∧ 136 ≤ 128 + (8 : BitVec 5).toNat ∧ 136 ≤ 135 + (8 : BitVec 5).toNat ∧
    ¬(1 ≤ (0 : BitVec 5).toNat ∧ (0 : BitVec 5).toNat ≤ 8) ∧ ¬(1 ≤ (9 : BitVec 5).toNat ∧ (9 : BitVec 5).toNat ≤ 8) ∧
    (squeezing.pos.toNat < 136 ∧ squeezing.cmdReady = true ∧ squeezing.phase = .squeeze) := by decide
theorem witness_FinalPadsTheLastBlock :
    ((State.pos { ready with pos := 135 }).toNat < 136 ∧ ready.cmdReady = true ∧ ready.phase = .absorb) ∧
    (squeezing.pos.toNat < 136 ∧ squeezing.cmdReady = true ∧ squeezing.phase = .squeeze) ∧
    (0x30000001 : CmdWord).extractLsb' 28 4 = 3 := by decide
theorem witness_SqueezeReturnsTheNextRateLane :
    (∀ q ∈ ([0, 15] : List (BitVec 5)), State.sq { squeezing with sq := q } = q ∧ q.toNat < 16) ∧
    (squeezing.cmdReady = true ∧ squeezing.phase = .squeeze) ∧ ((16 : BitVec 5).toNat < 17 ∧ (16 : BitVec 5).toNat = 16) ∧
    (ready.sq.toNat < 17 ∧ ready.cmdReady = true ∧ ready.phase = .absorb) ∧ (0x40000100 : CmdWord).extractLsb' 28 4 = 4 := by decide
theorem witness_LoadLaneWritesOneLane :
    (ready.cmdReady = true ∧ ready.params.laneAccess = true ∧ (24 : BitVec 5).toNat ≤ 24 ∧ 24 < (25 : BitVec 5).toNat) ∧
    (readyPlain.cmdReady = true ∧ readyPlain.params.laneAccess = false) ∧
    ((0x60000020 : CmdWord).extractLsb' 28 4 = 6 ∧ (0x60000020 : CmdWord).extractLsb' 5 23 ≠ 0) := by decide
theorem witness_ReadLaneCopiesOneLane :
    (squeezing.cmdReady = true ∧ squeezing.params.laneAccess = true ∧ (24 : BitVec 5).toNat ≤ 24 ∧ 24 < (25 : BitVec 5).toNat) ∧
    (readyPlain.cmdReady = true ∧ readyPlain.params.laneAccess = false) ∧
    ((0x78000000 : CmdWord).extractLsb' 28 4 = 7 ∧ (0x78000000 : CmdWord).extractLsb' 5 23 ≠ 0) := by decide
theorem witness_LaneAccessOnlyGatesTheLaneCommands :
    (readyPlain.cmdReady = true ∧ readyPlain.params.laneAccess = false ∧ (0x70000000 : CmdWord).extractLsb' 28 4 = 7) ∧
    ((0x20000001 : CmdWord).extractLsb' 28 4 ≠ 6 ∧ (0x20000001 : CmdWord).extractLsb' 28 4 ≠ 7) := by decide
theorem witness_SpongeCommandsNeverMoveTheCapacity :
    squeezing.FieldsInRange ∧ Instr.squeeze.needsLaneAccess = false ∧ sameRate (setLane zeroLanes 24 1) squeezing.lanes := by
  refine ⟨by decide, rfl, fun i h => ?_⟩
  simp only [rateLanes] at h
  rw [lane_setLane_ne _ _ (by omega)]
  rfl
theorem witness_RaisingChangesOnlyTheErrorRecord :
    ready.cmdReady = true ∧ commandCause ready.params.laneAccess ready.phase 0x00000000 = some .illegalOpcode ∧
    commandCause ready.params.laneAccess ready.phase 0x20000001 = none ∧
    decode ready.params.laneAccess ⟨0x20000001, 0⟩ ≠ .ok .init := by decide
theorem witness_ErrorStaysUntilInitOrReset :
    (step (facing (assemble .init) { ready with err := true, cause := 3 }) =
      .next (stepped (facing (assemble .init) { ready with err := true, cause := 3 }))) ∧
    (step (facing (assemble .squeeze) ready) = .next (stepped (facing (assemble .squeeze) ready)) ∧
      (facing (assemble .squeeze) ready).err = false ∧ (stepped (facing (assemble .squeeze) ready)).err = true) :=
  ⟨stepped_eq _, stepped_eq _, by decide, by decide⟩
theorem witness_CausesHaveTheirPriority : ready.cmdReady = true ∧
    illegalOpcode true 0x00000000 ∧ illegalOpcode true 0x80000000 ∧ illegalOpcode false 0x7000001F ∧
    (¬ illegalOpcode true 0x40000100 ∧ illegalField 0x40000100) ∧ (¬ illegalOpcode true 0x70000019 ∧ illegalField 0x70000019) ∧
    (¬ illegalOpcode true 0x20000000 ∧ illegalField 0x20000000) ∧ (¬ illegalOpcode true 0x20000009 ∧ illegalField 0x20000009) ∧
    (¬ illegalOpcode true 0x20000008 ∧ ¬ illegalField 0x20000008 ∧ wrongPhase .squeeze 0x20000008) ∧
    (¬ illegalOpcode true 0x30000000 ∧ ¬ illegalField 0x30000000 ∧ wrongPhase .squeeze 0x30000000) ∧
    (¬ illegalOpcode true 0x40000000 ∧ ¬ illegalField 0x40000000 ∧ wrongPhase .absorb 0x40000000) ∧
    (¬ illegalOpcode true 0x70000018 ∧ ¬ illegalField 0x70000018 ∧ ¬ wrongPhase .squeeze 0x70000018) ∧
    (ready.phase = .absorb ∧ ready.err = false) := by
  refine ⟨?_, ?_, ?_, ?_, ?_, ?_, ?_, ?_, ?_, ?_, ?_, ?_, ?_⟩ <;> decide
theorem witness_StepRunsTheDecodedInstr :
    (∀ c ∈ ([⟨0x20000008, 5⟩, ⟨0x00000000, 0⟩, ⟨0x20000009, 0⟩] : List Command),
      (facing (.command c) ready).currentAction = some (.command c) ∧ (facing (.command c) ready).cmdReady = true) ∧
    decode true ⟨0x20000008, 5⟩ = .ok (.absorb 8 5) ∧ decode true ⟨0x00000000, 0⟩ = .error .illegalOpcode ∧
    decode true ⟨0x20000009, 0⟩ = .error .illegalField ∧
    exec (.absorb 8 5) ready = .next (effectOf (.absorb 8 5) ready) :=
  ⟨by decide, by decide, by decide, by decide, exec_executes rfl rfl⟩
theorem witness_PlacedWordIsTheNextCommand :
    0 < State.pc { ready with program := [.reset, .rdStatus], pc := 1 } ∧
    0 < (State.program { ready with program := [.reset, .rdStatus], pc := 1 }).length := by decide
theorem witness_BusyHoldsTheOfferedCommand :
    ((facing .waitIdle ready).busy = false ∧ (facing .waitIdle ready).currentAction = some .waitIdle) ∧
    ((facing .waitIdle (permuting 23)).busy = true ∧ (facing .waitIdle (permuting 23)).currentAction = some .waitIdle ∧
      step (facing .waitIdle (permuting 23)) = .next (stepped (facing .waitIdle (permuting 23)))) ∧
    (facing (assemble .init) (permuting 23)).busy = true ∧ (facing (assemble .init) (permuting 23)).offered = some ⟨0x10000000, 0⟩ ∧
    (facing (assemble .init) (permuting 23)).rst = false ∧ (facing (assemble .init) (permuting 23)).round.toNat < 24 ∧
    (facing .rdStatus (permuting 23)).currentAction = some .rdStatus :=
  ⟨by decide, ⟨by decide, by decide, stepped_eq _⟩, by decide, by decide, by decide, by decide, by decide⟩
theorem witness_EveryPermutationEnds : (permuting 0).Inv ∧ (permuting 0).busy = true ∧ (permuting 0).rst = false := by decide
theorem witness_ReadsReturnThePortsAndChangeNothing :
    (∀ a ∈ [HostAction.rdStatus, .rdResult], (facing a ready).nextAgent = some .host ∧ (facing a ready).currentAction = some a) ∧
    State.nextAgent { facing .rdStatus (permuting 2) with schedule := [.host] } = some .host := by decide
theorem witness_ResetHoldsTheEngineAtItsResetValues :
    (facing .reset ready).stepResets ∧ (facing (.driveRst true) ready).stepResets ∧
    State.stepResets { facing .reset (permuting 3) with schedule := [.host] } ∧
    (State.rst { facing (.driveRst false) ready with rst := true } = true ∧
      State.Inv { facing (.driveRst false) ready with rst := true } ∧
      State.currentAction { facing (.driveRst false) ready with rst := true } = some (.driveRst false)) :=
  ⟨⟨by decide, .inl rfl⟩, ⟨by decide, .inr rfl⟩, ⟨by decide, .inl rfl⟩, by decide, by decide +kernel, by decide⟩
theorem witness_IdleEngineChangesNothing :
    (ready.busy = false ∧ ready.currentAction = none) ∧
    (step (facing .rdStatus ready) = .next (stepped (facing .rdStatus ready)) ∧ (facing .rdStatus ready).accepts = false ∧
      ¬ (facing .rdStatus ready).stepResets) :=
  ⟨by decide, stepped_eq _, by decide, by rintro ⟨-, h | h⟩ <;> exact absurd h (by decide)⟩
theorem witness_NoStepChangesTheBuildParameters : step (permuting 0) = .next (stepped (permuting 0)) := stepped_eq _
theorem witness_PcMovesOnlyForward :
    step (facing (assemble .init) ready) = .next (stepped (facing (assemble .init) ready)) ∧
    (facing (assemble .init) ready).nextAgent = some .host ∧ (facing (assemble .init) ready).accepts = true ∧
    (permuting 0).nextAgent ≠ some .host := ⟨stepped_eq _, by decide, by decide, by decide⟩
theorem witness_NoCommandInsideAPermutation :
    (permuting 0).busy = true ∧ (permuting 0).rst = false ∧ (permuting 0).engineEnabled = true := by decide
theorem witness_LanesAreWrittenByTheirRulesOnly :
    (facing (assemble (.loadLane 24 1)) ready).pos.toNat < 136 ∧
    step (facing (assemble (.loadLane 24 1)) ready) = .next (stepped (facing (assemble (.loadLane 24 1)) ready)) ∧
    (stepped (facing (assemble (.loadLane 24 1)) ready)).lanes ≠ (facing (assemble (.loadLane 24 1)) ready).lanes ∧
    (facing (assemble (.loadLane 24 1)) ready).stepExecutes (.loadLane 24 1) ∧
    (facing (assemble (.absorb 8 1)) ready).stepExecutes (.absorb 8 1) ∧
    (facing (assemble .final) ready).stepExecutes .final ∧ (facing (assemble .init) ready).stepExecutes .init ∧
    (facing .reset ready).stepResets :=
  ⟨by decide, stepped_eq _, by decide +kernel, facing_executes _ _ rfl (by decide) rfl, facing_executes _ _ rfl (by decide) rfl,
    facing_executes _ _ rfl (by decide) rfl, facing_executes _ _ rfl (by decide) rfl, by decide, .inl rfl⟩
theorem witness_PhaseIsSetByInitFinalAndReset :
    (facing (assemble .final) ready).stepExecutes .final ∧
    step (facing (assemble .final) ready) = .next (stepped (facing (assemble .final) ready)) ∧
    (stepped (facing (assemble .final) ready)).phase ≠ (facing (assemble .final) ready).phase ∧
    (facing (assemble .init) squeezing).stepExecutes .init ∧ (facing (.driveRst true) squeezing).stepResets ∧
    (squeezing.cmdReady = true ∧ squeezing.phase = .squeeze ∧ decode true (encode .final) = .ok .final ∧
      (facing (assemble .final) squeezing).currentAction = some (.command (encode .final)) ∧
      decode true (encode (.absorb 1 1)) = .ok (.absorb 1 1)) ∧
    (ready.cmdReady = true ∧ ready.phase = .absorb ∧ decode true (encode .squeeze) = .ok .squeeze ∧
      (facing (assemble .squeeze) ready).currentAction = some (.command (encode .squeeze))) :=
  ⟨facing_executes _ _ rfl (by decide) rfl, stepped_eq _, by decide +kernel, facing_executes _ _ rfl (by decide) rfl,
    ⟨by decide, .inr rfl⟩, by decide, by decide⟩
theorem witness_PosAndSqAreWrittenByTheirRulesOnly :
    ((facing (assemble (.absorb 3 1)) ready).Inv ∧
      step (facing (assemble (.absorb 3 1)) ready) = .next (stepped (facing (assemble (.absorb 3 1)) ready)) ∧
      (stepped (facing (assemble (.absorb 3 1)) ready)).pos ≠ (facing (assemble (.absorb 3 1)) ready).pos) ∧
    ((facing (assemble .squeeze) squeezing).Inv ∧
      step (facing (assemble .squeeze) squeezing) = .next (stepped (facing (assemble .squeeze) squeezing)) ∧
      (stepped (facing (assemble .squeeze) squeezing)).sq ≠ (facing (assemble .squeeze) squeezing).sq) :=
  ⟨⟨by decide, stepped_eq _, by decide +kernel⟩, by decide, stepped_eq _, by decide +kernel⟩
theorem witness_BusyAndRoundFollowThePermutation :
    ((facing (assemble .permute) ready).Inv ∧
      step (facing (assemble .permute) ready) = .next (stepped (facing (assemble .permute) ready)) ∧
      (facing (assemble .permute) ready).busy = false ∧ (stepped (facing (assemble .permute) ready)).busy = true) ∧
    ((facing (assemble (.absorb 8 1)) { ready with pos := 128 }).stepExecutes (.absorb 8 1) ∧ 136 ≤ 128 + (8 : BitVec 5).toNat) ∧
    ((facing (assemble .squeeze) { squeezing with sq := 16 }).stepExecutes .squeeze ∧ (16 : BitVec 5).toNat = 16) ∧
    ((permuting 23).Inv ∧ step (permuting 23) = .next (stepped (permuting 23)) ∧ (permuting 23).busy = true ∧
      (stepped (permuting 23)).busy = false ∧ (permuting 23).stepIsEngine) ∧
    State.stepResets { facing .reset (permuting 3) with schedule := [.host] } :=
  ⟨⟨by decide, stepped_eq _, by decide, by decide +kernel⟩, ⟨facing_executes _ _ rfl (by decide) rfl, by decide⟩,
    ⟨facing_executes _ _ rfl (by decide) rfl, by decide⟩, ⟨by decide, stepped_eq _, by decide, by decide +kernel,
    (rfl : (permuting 23).nextAgent = some .engine)⟩, by decide, .inl rfl⟩
theorem witness_ResultIsWrittenByItsRulesOnly :
    step (facing (assemble .squeeze) { squeezing with lanes := countingLanes, sq := 16 }) =
      .next (stepped (facing (assemble .squeeze) { squeezing with lanes := countingLanes, sq := 16 })) ∧
    (facing (assemble .squeeze) { squeezing with lanes := countingLanes, sq := 16 }).stepExecutes .squeeze ∧
    (stepped (facing (assemble .squeeze) { squeezing with lanes := countingLanes, sq := 16 })).result ≠
      (facing (assemble .squeeze) { squeezing with lanes := countingLanes, sq := 16 }).result ∧
    (facing (assemble (.readLane 24)) ready).stepExecutes (.readLane 24) ∧ (facing (assemble .init) ready).stepExecutes .init :=
  ⟨stepped_eq _, facing_executes _ _ rfl (by decide) rfl, by decide +kernel, facing_executes _ _ rfl (by decide) rfl,
    facing_executes _ _ rfl (by decide) rfl⟩
theorem witness_InstancesShareNothing : (0 ≠ 1) ∧ [ready, squeezing][1]? = some squeezing := by decide
theorem witness_PaddingEndsTheBlock :
    (List.replicate 134 (0 : Byte)).length % 136 ≤ 134 ∧ (List.replicate 135 (0 : Byte)).length % 136 = 135 ∧
    (List.replicate 136 (0 : Byte)).length % 136 ≤ 134 := by simp
theorem witness_DigestIsTheFirstThirtyTwoBytes : 136 ≤ 144 := by decide
theorem witness_BlockBytesAreSeventeenLittleEndianWords : (List.replicate 136 (0x61 : Byte)).length = 136 := by simp
/-- A host about to send "abc" and read STATUS after. -/
def hashing : State :=
  { ready with program := digestProgram (splitCommands [(1, 0x61), (2, 0x6362)]) 4 ++ [HostAction.rdStatus] }

/-- R139's premises: "abc" in two ABSORBs, before a host that then reads STATUS. -/
theorem witness_CommandSequenceComputesTheSponge :
    legalSplit [(1, 0x61), (2, 0x6362)] ∧ hashing.busy = false ∧ hashing.rst = false ∧
    hashing.program.drop hashing.pc = digestProgram (splitCommands [(1, 0x61), (2, 0x6362)]) (4 * 1) ++ [HostAction.rdStatus] := by
  refine ⟨fun c h => ?_, rfl, rfl, rfl⟩
  fin_cases h <;> decide

end Sys2Proof.Tests
end

section
/-! PROOFS. What 00_scope.md fixes before any command: state bytes read back what was written to them (R12), and
`rotl` is the circular left rotation (R11). -/

namespace Sys2Proof.Machine

/-! ### MemRead and MemWrite (R12) -/

/-- MemRead recovers the low `n` bytes of any number whose base-256 digits lie in order at the bytes it names. -/
theorem memRead_of_digits {a : Lanes} {n j v : Nat}
    (h : ∀ k, k < n → sb a (j + k) = BitVec.ofNat 8 (v / 256 ^ k)) : memRead a j n = v % 256 ^ n := by
  induction n generalizing j v with
  | zero => simp [memRead, Nat.mod_one]
  | succ n ih =>
    have hhead : (sb a j).toNat = v % 256 := by
      simpa using congrArg BitVec.toNat (h 0 n.succ_pos)
    have htail : memRead a (j + 1) n = v / 256 % 256 ^ n := ih fun k hk => by
      rw [Nat.add_assoc, Nat.add_comm 1, h (k + 1) (by omega), Nat.pow_succ', Nat.div_div_eq_div_mul]
    rw [memRead, hhead, htail, Nat.pow_succ', Nat.mod_mul]

theorem sb_memWrite_inside (a : Lanes) {j n k : Nat} (v : Nat) (hb : j + n ≤ 200) (hk : k < n) :
    sb (memWrite a j n v) (j + k) = BitVec.ofNat 8 (v / 256 ^ k) := by
  rw [sb_memWrite n a j v _ (by omega), if_pos (by omega), Nat.add_sub_cancel_left]

theorem sb_memWrite_outside (a : Lanes) {j n k : Nat} (v : Nat) (hk : k < 200) (h : k < j ∨ j + n ≤ k) :
    sb (memWrite a j n v) k = sb a k := by
  rw [sb_memWrite n a j v k hk, if_neg (by omega)]

theorem memRead_memWrite (a : Lanes) {j n : Nat} (v : Nat) (hb : j + n ≤ 200) :
    memRead (memWrite a j n v) j n = v % 256 ^ n :=
  memRead_of_digits fun _ => sb_memWrite_inside a v hb

/-- Settles O9, byte by byte from `sb_memWrite` and `sb_xorSb`; the number read back by induction on its digits. -/
theorem stateBytesReadBackWhatIsWritten : Obligations.StateBytesReadBackWhatIsWritten := by
  intro a j n v hb
  refine ⟨memRead_memWrite a v hb, fun k => sb_memWrite_inside a v hb, fun k => sb_memWrite_outside a v,
    fun k b hk => ⟨?_, fun k' hk' hne => ?_⟩⟩
  · rw [sb_xorSb a k k b hk, if_pos rfl]
  · rw [sb_xorSb a k k' b hk', if_neg hne.symm]

/-! ### rotl (R11) -/

/-- Below 64 the spec's `rotl` is the library's rotation of bit vectors. -/
theorem rotl_eq_rotateLeft (v : Lane) {n : Nat} (hn : n < 64) : rotl v n = v.rotateLeft n := by
  rw [BitVec.rotateLeft_def, Nat.mod_eq_of_lt hn, rotl]

theorem rotl_getLsbD (v : Lane) {n i : Nat} (hn : n < 64) (hi : i < 64) :
    (rotl v n).getLsbD i = v.getLsbD ((i + 64 - n) % 64) := by
  rw [rotl_eq_rotateLeft v hn, BitVec.getLsbD_rotateLeft, Nat.mod_eq_of_lt hn]
  by_cases h : i < n
  · have hwrap : (i + 64 - n) % 64 = 64 - n + i := by omega
    simp [h, hwrap]
  · have hdown : (i + 64 - n) % 64 = i - n := by omega
    simp [h, hi, hdown]

/-- R11's formula: reducing the OR modulo 2^64 cuts the left part alone, as the right part fits in 64 bits already. -/
theorem rotl_toNat (v : Lane) (n : Nat) :
    (rotl v n).toNat = (v.toNat * 2 ^ n ||| v.toNat / 2 ^ (64 - n)) % 2 ^ 64 := by
  have hfit : v.toNat / 2 ^ (64 - n) < 2 ^ 64 := (Nat.div_le_self _ _).trans_lt v.isLt
  rw [rotl, BitVec.toNat_or, BitVec.toNat_shiftLeft, BitVec.toNat_ushiftRight, Nat.shiftLeft_eq,
    Nat.shiftRight_eq_div_pow, Nat.or_mod_two_pow, Nat.mod_eq_of_lt hfit]

@[simp] theorem rotl_zero (v : Lane) : rotl v 0 = v := by
  apply BitVec.eq_of_getLsbD_eq
  intro i hi
  rw [rotl_getLsbD v (by decide) hi, Nat.sub_zero, Nat.add_mod_right, Nat.mod_eq_of_lt hi]

/-- Settles O13: the library's rotation gives the bits, and the two shifts give the number. -/
theorem rotlIsCircularLeftRotation : Obligations.RotlIsCircularLeftRotation :=
  fun v n hn => ⟨fun _ => rotl_getLsbD v hn, rotl_toNat v n, rotl_zero v⟩

end Sys2Proof.Machine
end

section
/-! PROOFS. What each effect writes, which registers a step can write, and the invariant that every step keeps (R37). -/

namespace Sys2Proof.Machine

open Sys2Proof.Config

/-! ### What each command writes, register by register -/

/-- INIT's registers (R135). -/
@[simp] theorem initialise_fields (s : State) :
    (initialise s).lanes = zeroLanes ∧ (initialise s).phase = .absorb ∧ (initialise s).pos = 0 ∧
    (initialise s).sq = 0 ∧ (initialise s).busy = s.busy ∧ (initialise s).round = s.round ∧
    (initialise s).pendCnt = 0 ∧ (initialise s).err = false ∧ (initialise s).cause = 0 ∧ (initialise s).result = 0 :=
  ⟨rfl, rfl, rfl, rfl, rfl, rfl, rfl, rfl, rfl, rfl⟩

/-- ABSORB writes none of these, whether or not it fills the block (R136). -/
@[simp] theorem absorbEffect_frame (n : Nat) (d : DataWord) (s : State) :
    (absorbEffect n d s).phase = s.phase ∧ (absorbEffect n d s).sq = s.sq ∧ (absorbEffect n d s).err = s.err ∧
    (absorbEffect n d s).cause = s.cause ∧ (absorbEffect n d s).result = s.result := by
  unfold absorbEffect closeBlock
  dsimp only
  split <;> simp

/-- FINAL's registers (R137). -/
@[simp] theorem finalEffect_fields (s : State) :
    (finalEffect s).phase = .squeeze ∧ (finalEffect s).pos = 0 ∧ (finalEffect s).sq = 0 ∧
    (finalEffect s).busy = true ∧ (finalEffect s).round = 0 ∧ (finalEffect s).pendCnt = s.pendCnt ∧
    (finalEffect s).err = s.err ∧ (finalEffect s).cause = s.cause ∧ (finalEffect s).result = s.result :=
  ⟨rfl, rfl, rfl, rfl, rfl, rfl, rfl, rfl, rfl⟩

/-- SQUEEZE gives the lane SQ names and writes none of the others, whether or not it is the 17th (R138). -/
@[simp] theorem squeezeEffect_frame (s : State) :
    (squeezeEffect s).lanes = s.lanes ∧ (squeezeEffect s).phase = s.phase ∧ (squeezeEffect s).pos = s.pos ∧
    (squeezeEffect s).pendCnt = s.pendCnt ∧ (squeezeEffect s).err = s.err ∧ (squeezeEffect s).cause = s.cause ∧
    (squeezeEffect s).result = lane s.lanes s.sq.toNat := by
  unfold squeezeEffect
  dsimp only
  split <;> simp

/-- Only INIT writes the error record of a command that executes (R185). -/
theorem effectOf_error_of_ne_init (s : State) {i : Instr} (h : i ≠ .init) :
    (effectOf i s).err = s.err ∧ (effectOf i s).cause = s.cause := by
  cases i <;> simp_all [effectOf]

/-! ### The registers a step leads to -/

/-- The engine's registers and the build, with the pin and the host's own fields blanked. -/
def State.registers (s : State) : State :=
  { s with rst := false, program := [], pc := 0, observed := [], schedule := [] }

/-- The engine does not read the schedule. -/
theorem engineStep_setSchedule (s : State) (l : List Agent) :
    engineStep (s.setSchedule l) = (engineStep s).setSchedule l := by
  by_cases h : s.round.toNat = 23
  · rw [engineStep_last h, engineStep_last (s := s.setSchedule l) h]; rfl
  · rw [engineStep_round h, engineStep_round (s := s.setSchedule l) h]; rfl

theorem takeTurn_eq_setSchedule (s : State) : ∃ l, s.takeTurn = s.setSchedule l := by
  unfold State.takeTurn
  split
  · exact ⟨_, rfl⟩
  · exact ⟨s.schedule, rfl⟩

theorem registers_takeTurn (s : State) : s.takeTurn.registers = s.registers := by
  obtain ⟨l, hl⟩ := takeTurn_eq_setSchedule s
  rw [hl]; rfl

theorem registers_applyReset_takeTurn (s : State) : s.takeTurn.applyReset.registers = s.applyReset.registers := by
  obtain ⟨l, hl⟩ := takeTurn_eq_setSchedule s
  rw [hl]; rfl

theorem registers_engineStep_takeTurn (s : State) :
    (engineStep s.takeTurn).registers = (engineStep s).registers := by
  obtain ⟨l, hl⟩ := takeTurn_eq_setSchedule s
  rw [hl, engineStep_setSchedule]; rfl

/-- What a step does to the engine's registers: nothing, one engine step, a reset, an error record, or the effect of the
command it executes. -/
theorem step_registers {s t : State} (h : step s = .next t) :
    t.registers = s.registers ∨
    (s.stepIsEngine ∧ t.registers = (engineStep s).registers) ∨
    (s.stepResets ∧ t.registers = s.applyReset.registers) ∨
    (∃ k, t.registers = (s.raise k).registers) ∨
    (∃ i, s.stepExecutes i ∧ t.registers = (effectOf i s).registers) := by
  cases step_case h with
  | idle => exact .inl rfl
  | engine hn => exact .inr (.inl ⟨hn, registers_engineStep_takeTurn s⟩)
  | raised c k => exact .inr (.inr (.inr (.inl ⟨k, rfl⟩)))
  | executed c i ha hr hd he => exact .inr (.inr (.inr (.inr ⟨i, ⟨c, ha, hr, hd, he⟩, rfl⟩)))
  | read => exact .inl (registers_takeTurn s)
  | waited => exact .inl (registers_takeTurn s)
  | reset level hs => exact .inr (.inr (.inl ⟨hs, registers_applyReset_takeTurn s⟩))
  | released => exact .inl (registers_takeTurn s)

/-- A register's value, where two states have the same registers. -/
theorem eq_of_registers_eq {α : Type} {t u : State} (h : t.registers = u.registers) (f : State → α)
    (hf : ∀ v : State, f v.registers = f v := by exact fun _ => rfl) : f t = f u := by
  rw [← hf t, h, hf u]

/-- A register outside the error record is written by the engine, by reset, or by the effect of a command. -/
theorem register_writer {α : Type} {s t : State} (h : step s = .next t) (f : State → α) (hne : f t ≠ f s)
    (hf : ∀ v : State, f v.registers = f v := by exact fun _ => rfl)
    (hraise : ∀ k, f (s.raise k) = f s := by exact fun _ => rfl) :
    (s.stepIsEngine ∧ f (engineStep s) ≠ f s) ∨ s.stepResets ∨ ∃ i, s.stepExecutes i ∧ f (effectOf i s) ≠ f s := by
  rcases step_registers h with hu | ⟨hn, hu⟩ | ⟨hs, -⟩ | ⟨k, hu⟩ | ⟨i, hi, hu⟩
  · exact absurd (eq_of_registers_eq hu f hf) hne
  · exact .inl ⟨hn, eq_of_registers_eq hu f hf ▸ hne⟩
  · exact .inr (.inl hs)
  · exact absurd ((eq_of_registers_eq hu f hf).trans (hraise k)) hne
  · exact .inr (.inr ⟨i, hi, eq_of_registers_eq hu f hf ▸ hne⟩)

/-! ### Where a step of each kind is possible -/

theorem engineEnabled_iff (s : State) : s.engineEnabled = true ↔ s.busy = true ∧ s.rst = false := by
  simp [State.engineEnabled]

theorem busy_of_stepIsEngine {s : State} (h : s.stepIsEngine) : s.busy = true ∧ s.rst = false :=
  (engineEnabled_iff s).mp (engineEnabled_of_nextAgent h)

theorem idle_of_stepExecutes {s : State} {i : Instr} (h : s.stepExecutes i) : s.busy = false ∧ s.rst = false := by
  obtain ⟨c, -, hr, -⟩ := h
  exact (cmdReady_iff s).mp hr

theorem executes_of_stepExecutes {s : State} {i : Instr} (h : s.stepExecutes i) : s.executes i = true := by
  obtain ⟨c, -, -, -, he⟩ := h
  exact he

/-- The reset values, whatever the engine was doing (R36, R200). -/
theorem registersReset_applyReset (s : State) : s.applyReset.RegistersReset :=
  ⟨rfl, rfl, rfl, rfl, rfl, rfl, rfl, rfl, rfl, rfl⟩

/-! ### The invariant's parts -/

/-- What the invariant says of the sponge's counters, by name. -/
structure State.SpongeInv (s : State) : Prop where
  pos_lt : s.pos.toNat < 136
  sq_lt : s.sq.toNat < 17
  round_lt : s.round.toNat < 24
  idle : s.busy = false → s.round = 0 ∧ s.pendCnt = 0
  pending : s.pendCnt ≠ 0 → s.pos = 0
  absorbing : s.phase = .absorb → s.sq = 0
  squeezing : s.phase = .squeeze → s.pos = 0 ∧ s.pendCnt = 0

/-- What the invariant says of the error record. -/
structure State.ErrorInv (s : State) : Prop where
  cause_eq_zero_iff : s.cause = 0 ↔ s.err = false
  cause_le : s.cause.toNat ≤ 3

theorem inv_iff (s : State) :
    s.Inv ↔ s.SpongeInv ∧ s.ErrorInv ∧ s.HeldInReset ∧ s.params.wf = true ∧ s.pc ≤ s.program.length := by
  constructor
  · rintro ⟨⟨hpos, hsq, hround, hidle, hcause⟩, hpend, hle, hheld, ⟨habs, hsqz⟩, hparams, hpc⟩
    exact ⟨⟨hpos, hsq, hround, hidle, hpend, habs, hsqz⟩, ⟨hcause, hle⟩, hheld, hparams, hpc⟩
  · rintro ⟨⟨hpos, hsq, hround, hidle, hpend, habs, hsqz⟩, ⟨hcause, hle⟩, hheld, hparams, hpc⟩
    exact ⟨⟨hpos, hsq, hround, hidle, hcause⟩, hpend, hle, hheld, ⟨habs, hsqz⟩, hparams, hpc⟩

/-- The sponge's part reads the engine's registers alone, and none of the error record. -/
theorem spongeInv_registers (s : State) : s.registers.SpongeInv ↔ s.SpongeInv :=
  ⟨fun h => ⟨h.1, h.2, h.3, h.4, h.5, h.6, h.7⟩, fun h => ⟨h.1, h.2, h.3, h.4, h.5, h.6, h.7⟩⟩

theorem spongeInv_raise {s : State} (h : s.SpongeInv) (k : Cause) : (s.raise k).SpongeInv :=
  ⟨h.1, h.2, h.3, h.4, h.5, h.6, h.7⟩

/-- The reset values meet the sponge's part (R36). -/
theorem spongeInv_of_registersReset {s : State} (h : s.RegistersReset) : s.SpongeInv := by
  obtain ⟨-, hphase, hpos, hsq, -, hround, hpend, -⟩ := h
  constructor <;> simp [hphase, hpos, hsq, hround, hpend]

theorem errorInv_of_clear {s : State} (herr : s.err = false) (hcause : s.cause = 0) : s.ErrorInv := by
  constructor <;> simp [herr, hcause]

/-! ### The sponge's part is kept -/

theorem spongeInv_setLanes {s : State} (h : s.SpongeInv) (a : Lanes) : (s.setLanes a).SpongeInv :=
  ⟨h.1, h.2, h.3, h.4, h.5, h.6, h.7⟩

theorem spongeInv_setRound {s : State} (h : s.SpongeInv) (hb : s.busy = true) {n : Nat} (hn : n < 24) :
    (s.setRound n).SpongeInv := by
  refine ⟨h.pos_lt, h.sq_lt, ?_, by simp [hb], h.pending, h.absorbing, h.squeezing⟩
  simp; omega

/-- Where bytes are pending POS is 0, so the end of a permutation leaves POS inside the block (R109). -/
theorem spongeInv_finishPermutation {s : State} (h : s.SpongeInv) : s.finishPermutation.SpongeInv := by
  refine ⟨?_, h.sq_lt, by simp, by simp, by simp, h.absorbing, fun hp => ?_⟩
  · have hpos := h.pos_lt
    by_cases hz : s.pendCnt = 0
    · simp [hz]; omega
    · simp [h.pending hz]; omega
  · obtain ⟨hp0, hc0⟩ := h.squeezing hp
    simp [hp0, hc0]

theorem spongeInv_engineStep {s : State} (h : s.SpongeInv) (hb : s.busy = true) : (engineStep s).SpongeInv := by
  have hround := h.round_lt
  by_cases h23 : s.round.toNat = 23
  · rw [engineStep_last h23]
    exact spongeInv_finishPermutation (spongeInv_setLanes h _)
  · rw [engineStep_round h23]
    exact spongeInv_setRound (spongeInv_setLanes h _) (by simpa using hb) (by omega)

/-- ABSORB: POS stays below the block's end, or is 0 with the rest of the bytes pending (R136). -/
theorem spongeInv_absorbEffect {s : State} (h : s.SpongeInv) (hb : s.busy = false) (hphase : s.phase = .absorb)
    {n : Nat} (d : DataWord) : (absorbEffect n d s).SpongeInv := by
  have hsq := h.absorbing hphase
  obtain ⟨hround, hpend⟩ := h.idle hb
  rcases absorb_cases n d s h.pos_lt with ⟨hlt, he⟩ | ⟨-, he⟩
  · rw [he]
    constructor <;> simp [hsq, hround, hpend, hphase]
    omega
  · rw [he, closeBlock]
    constructor <;> simp [hsq, hphase]

/-- FINAL finds no byte pending, so PEND_CNT is 0 in SQUEEZE phase (R137). -/
theorem spongeInv_finalEffect {s : State} (h : s.SpongeInv) (hb : s.busy = false) : (finalEffect s).SpongeInv := by
  obtain ⟨-, hpend⟩ := h.idle hb
  constructor <;> simp [hpend]

/-- SQUEEZE: SQ counts to 16 and starts over (R138). -/
theorem spongeInv_squeezeEffect {s : State} (h : s.SpongeInv) (hb : s.busy = false) (hphase : s.phase = .squeeze) :
    (squeezeEffect s).SpongeInv := by
  have hsq := h.sq_lt
  obtain ⟨hround, -⟩ := h.idle hb
  obtain ⟨hpos, hpend⟩ := h.squeezing hphase
  by_cases h16 : s.sq.toNat = 16
  · rw [squeezeEffect_last s h16]
    constructor <;> simp [hpos, hpend, hphase]
  · rw [squeezeEffect_within s h16]
    constructor <;> simp [hpos, hpend, hround, hphase]
    omega

theorem spongeInv_effectOf {s : State} {i : Instr} (h : s.SpongeInv) (hb : s.busy = false)
    (he : s.executes i = true) : (effectOf i s).SpongeInv := by
  cases i with
  | init => constructor <;> simp [effectOf, (h.idle hb).1]
  | absorb n d =>
    obtain ⟨-, hphase⟩ : byteCountWf n = true ∧ s.phase = .absorb := by simpa [State.executes] using he
    exact spongeInv_absorbEffect h hb hphase d
  | final => exact spongeInv_finalEffect h hb
  | squeeze => exact spongeInv_squeezeEffect h hb (by simpa [State.executes] using he)
  | permute => exact ⟨h.pos_lt, h.sq_lt, Nat.zero_lt_succ _, nofun, h.pending, h.absorbing, h.squeezing⟩
  | loadLane k d => exact spongeInv_setLanes h _
  | readLane k => exact ⟨h.1, h.2, h.3, h.4, h.5, h.6, h.7⟩

theorem step_keeps_spongeInv {s t : State} (hs : s.SpongeInv) (h : step s = .next t) : t.SpongeInv := by
  rw [← spongeInv_registers]
  rcases step_registers h with hu | ⟨hn, hu⟩ | ⟨-, hu⟩ | ⟨k, hu⟩ | ⟨i, hi, hu⟩ <;> rw [hu, spongeInv_registers]
  · exact hs
  · exact spongeInv_engineStep hs (busy_of_stepIsEngine hn).1
  · exact spongeInv_of_registersReset (registersReset_applyReset s)
  · exact spongeInv_raise hs k
  · exact spongeInv_effectOf hs (idle_of_stepExecutes hi).1 (executes_of_stepExecutes hi)

/-! ### The error record is kept -/

/-- What a step does to ERR and CAUSE: nothing, INIT's or reset's zeros, or one raised cause. -/
theorem step_error_record {s t : State} (h : step s = .next t) :
    (t.err = s.err ∧ t.cause = s.cause) ∨
    (t.err = false ∧ t.cause = 0 ∧ (s.stepExecutes .init ∨ s.stepResets)) ∨
    (∃ k : Cause, t.err = true ∧ t.cause = if s.err then s.cause else k.code) := by
  rcases step_registers h with hu | ⟨-, hu⟩ | ⟨hr, hu⟩ | ⟨k, hu⟩ | ⟨i, hi, hu⟩ <;>
    have herr := eq_of_registers_eq hu State.err <;> have hcause := eq_of_registers_eq hu State.cause
  · exact .inl ⟨herr, hcause⟩
  · obtain ⟨-, -, -, -, he, hc, -⟩ := engineStep_frame s
    exact .inl ⟨herr.trans he, hcause.trans hc⟩
  · exact .inr (.inl ⟨herr, hcause, .inr hr⟩)
  · exact .inr (.inr ⟨k, herr, hcause⟩)
  · by_cases hinit : i = .init
    · subst hinit
      exact .inr (.inl ⟨herr, hcause, .inl hi⟩)
    · obtain ⟨he, hc⟩ := effectOf_error_of_ne_init s hinit
      exact .inl ⟨herr.trans he, hcause.trans hc⟩

/-- A raised cause is a code of R181, and ERR says that there is one (R182). -/
theorem step_keeps_errorInv {s t : State} (hs : s.ErrorInv) (h : step s = .next t) : t.ErrorInv := by
  rcases step_error_record h with ⟨he, hc⟩ | ⟨he, hc, -⟩ | ⟨k, he, hc⟩
  · exact ⟨by rw [he, hc]; exact hs.cause_eq_zero_iff, by rw [hc]; exact hs.cause_le⟩
  · exact errorInv_of_clear he hc
  · have hcode : k.code ≠ 0 ∧ k.code.toNat ≤ 3 := by cases k <;> decide
    cases herr : s.err with
    | false =>
      have hnew : t.cause = k.code := by simp [hc, herr]
      exact ⟨by rw [he, hnew]; simpa using hcode.1, hnew ▸ hcode.2⟩
    | true =>
      have hold : t.cause = s.cause := by simp [hc, herr]
      exact ⟨by rw [he, hold, hs.cause_eq_zero_iff, herr], hold ▸ hs.cause_le⟩

/-! ### The values held in reset, the build and the host's place -/

theorem registersReset_takeTurn (s : State) : s.takeTurn.RegistersReset ↔ s.RegistersReset := by
  simp [State.RegistersReset]

/-- While `rst = 1` no engine step and no command is enabled, so the reset values stay (R200). -/
theorem step_keeps_heldInReset {s t : State} (hs : s.HeldInReset) (h : step s = .next t) : t.HeldInReset := by
  intro hrst
  cases step_case h with
  | idle => exact hs hrst
  | engine hn => simp [engineStep_frame, (busy_of_stepIsEngine hn).2] at hrst
  | raised c k ha hr => simp [((cmdReady_iff s).mp hr).2] at hrst
  | executed c i ha hr => simp [((cmdReady_iff s).mp hr).2] at hrst
  | read => exact (registersReset_takeTurn s).mpr (hs (by simpa using hrst))
  | waited => exact (registersReset_takeTurn s).mpr (hs (by simpa using hrst))
  | reset level => exact registersReset_applyReset s.takeTurn
  | released => simp at hrst

theorem step_params {s t : State} (h : step s = .next t) : t.params = s.params := by
  cases step_case h with
  | engine => simp [engineStep_frame]
  | _ => simp

/-- Where a command is accepted the host moves (R20, R32). -/
theorem nextAgent_of_command {s : State} {c : Command} (ha : s.currentAction = some (.command c))
    (hr : s.cmdReady = true) : s.nextAgent = some .host :=
  (nextAgent_host_of_idle_engine (by simp [State.hostEnabled, ha, hr]) (engineEnabled_of_cmdReady hr)).1

/-- The host's list stays, and `pc` moves on exactly where the host moves (R31). -/
theorem step_program_pc {s t : State} (h : step s = .next t) :
    t.program = s.program ∧ (s.nextAgent = some .host → t.pc = s.pc + 1) ∧ (s.nextAgent ≠ some .host → t.pc = s.pc) := by
  cases step_case h with
  | idle hn => simp [hn]
  | engine hn => simp [hn, engineStep_frame]
  | raised c k ha hr => simp [nextAgent_of_command ha hr]
  | executed c i ha hr => simp [nextAgent_of_command ha hr]
  | read o hn => simp [hn]
  | waited hn => simp [hn]
  | reset level hs => simp [hs.1]
  | released hn => simp [hn]

theorem step_pc_le {s t : State} (hs : s.pc ≤ s.program.length) (h : step s = .next t) : t.pc ≤ t.program.length := by
  obtain ⟨hprog, hhost, hother⟩ := step_program_pc h
  rw [hprog]
  by_cases hn : s.nextAgent = some .host
  · rw [hhost hn]
    exact pc_lt_of_currentAction (currentAction_of_nextAgent hn)
  · rwa [hother hn]

/-! ### Every step keeps the invariant -/

/-- Settles O12, part by part: the sponge's counters and the error record by what a step does to the registers, then the
values held in reset, the build's range and `pc`. -/
theorem everyStepKeepsTheInvariant : Obligations.EveryStepKeepsTheInvariant := by
  intro s t hs h
  obtain ⟨hsponge, herror, hheld, hparams, hpc⟩ := (inv_iff s).mp hs
  exact (inv_iff t).mpr ⟨step_keeps_spongeInv hsponge h, step_keeps_errorInv herror h, step_keeps_heldInReset hheld h,
    step_params h ▸ hparams, step_pc_le hpc h⟩

end Sys2Proof.Machine
end

section
/-! PROOFS. Who writes each register: the error record, `pc`, the lanes, PHASE, POS and SQ, BUSY and ROUND, and RESULT
(R21 to R31). -/

namespace Sys2Proof.Machine

open Sys2Proof.Config Sys2Proof.Laws.EncodedFields

/-! ### The state after each kind of step -/

theorem registers_of_stepExecutes {s t : State} {i : Instr} (h : step s = .next t) (hi : s.stepExecutes i) :
    t.registers = (effectOf i s).registers := by
  rw [next_unique h (step_of_executes hi)]; rfl

theorem registers_of_stepResets {s t : State} (h : step s = .next t) (hs : s.stepResets) :
    t.registers = s.applyReset.registers := by
  obtain ⟨l, hl, -⟩ := step_of_resets hs
  rw [next_unique h hl]
  exact registers_applyReset_takeTurn s

theorem registers_of_stepIsEngine {s t : State} (h : step s = .next t) (hs : s.stepIsEngine) :
    t.registers = (engineStep s).registers := by
  have hn : s.nextAgent = some .engine := hs
  have hstep : step s = .next (engineStep s.takeTurn) := by simp [step, agentStep, hn]
  rw [next_unique h hstep]
  exact registers_engineStep_takeTurn s

/-! ### The cause of an accepted command (R76, R181) -/

/-- The opcode check of R76, in the decoder and over the word's bits. -/
theorem selectOpcode_eq_none_iff (la : Bool) (o : BitVec 4) (a : BitVec 5) (d : DataWord) :
    selectOpcode la o a d = none ↔ o.toNat ∉ [1, 2, 3, 4, 5, 6, 7] ∨ (o.toNat ∈ [6, 7] ∧ la = false) := by
  unfold selectOpcode
  split <;> simp_all

theorem opcode_of_selectOpcode {la : Bool} {o : BitVec 4} {a : BitVec 5} {d : DataWord} {i : Instr}
    (h : selectOpcode la o a d = some i) : o.toNat ∈ [1, 2, 3, 4, 5, 6, 7] := by
  by_contra hn
  rw [(selectOpcode_eq_none_iff ..).mpr (.inl hn)] at h
  cases h

/-- The field check of R76, in the decoder and over the word's bits, for an opcode of R75. -/
theorem field_check_iff {o : BitVec 4} (r : BitVec 23) (a : BitVec 5) (ho : o.toNat ∈ [1, 2, 3, 4, 5, 6, 7]) :
    (r = 0 ∧ argLegal o a = true) ↔
      ¬ (r.toNat ≠ 0 ∨ (o.toNat = 2 ∧ ¬(1 ≤ a.toNat ∧ a.toNat ≤ 8)) ∨ (o.toNat ∈ [6, 7] ∧ ¬(a.toNat ≤ 24)) ∨
        (o.toNat ∈ [1, 3, 4, 5] ∧ a.toNat ≠ 0)) := by
  have hr : r = 0 ↔ r.toNat = 0 := by simp [BitVec.toNat_eq]
  rw [hr]
  simp only [List.mem_cons, List.not_mem_nil, or_false] at ho
  rcases ho with ho | ho | ho | ho | ho | ho | ho <;> simp [argLegal, byteCountLegal, laneIndexLegal, ho]

/-- What the opcode and field checks leave: a well-formed instruction of that opcode, which the build has. -/
theorem legal_of_decode {la : Bool} {c : Command} {i : Instr} (h : decode la c = .ok i) :
    opcField c.cmd = opcodeOf i ∧ i.wf = true ∧ (i.needsLaneAccess = true → la = true) := by
  obtain ⟨hs, -, ha⟩ := decode_ok h
  have ho := opcode_of_selectOpcode hs
  simp only [List.mem_cons, List.not_mem_nil, or_false] at ho
  rcases ho with ho | ho | ho | ho | ho | ho | ho <;> simp only [selectOpcode, argLegal, ho] at hs ha
  · cases hs; exact ⟨BitVec.eq_of_toNat_eq ho, rfl, nofun⟩
  · cases hs; exact ⟨BitVec.eq_of_toNat_eq ho, ha, nofun⟩
  · cases hs; exact ⟨BitVec.eq_of_toNat_eq ho, rfl, nofun⟩
  · cases hs; exact ⟨BitVec.eq_of_toNat_eq ho, rfl, nofun⟩
  · cases hs; exact ⟨BitVec.eq_of_toNat_eq ho, rfl, nofun⟩
  · obtain ⟨hla, rfl⟩ : la = true ∧ .loadLane (argField c.cmd) c.data = i := by simpa using hs
    exact ⟨BitVec.eq_of_toNat_eq ho, ha, fun _ => hla⟩
  · obtain ⟨hla, rfl⟩ : la = true ∧ .readLane (argField c.cmd) = i := by simpa using hs
    exact ⟨BitVec.eq_of_toNat_eq ho, ha, fun _ => hla⟩

/-- The phase check of R76 is all that a legal instruction can still fail. -/
theorem executes_iff_phase {s : State} {i : Instr} (hw : i.wf = true)
    (hla : i.needsLaneAccess = true → s.params.laneAccess = true) :
    s.executes i = true ↔
      ¬ (((opcodeOf i).toNat ∈ [2, 3] ∧ s.phase ≠ .absorb) ∨ ((opcodeOf i).toNat = 4 ∧ s.phase ≠ .squeeze)) := by
  cases i <;> simp_all [State.executes, opcodeOf, Instr.wf, Instr.needsLaneAccess]

/-- So the cause of a legal instruction that fails is the phase's (R181). -/
theorem causeOf_of_legal {s : State} {i : Instr} (hw : i.wf = true)
    (hla : i.needsLaneAccess = true → s.params.laneAccess = true) (he : s.executes i = false) :
    causeOf i s = .wrongPhase := by
  cases i <;> simp_all [State.executes, causeOf, Instr.wf, Instr.needsLaneAccess]

/-- A word that does not decode has the cause of its decoding error. -/
theorem commandCause_of_error {la : Bool} {c : Command} {e : DecodeError} (h : decode la c = .error e) (p : Phase) :
    commandCause la p c.cmd = some (decodeCause e) := by
  unfold decode at h
  split at h
  · rename_i hs
    cases h
    exact if_pos ((selectOpcode_eq_none_iff ..).mp hs)
  · rename_i hs
    have hopc := mt (selectOpcode_eq_none_iff ..).mpr (by rw [hs]; nofun)
    split at h
    · cases h
    · rename_i hf
      cases h
      rw [field_check_iff _ _ (opcode_of_selectOpcode hs), not_not] at hf
      exact (if_neg hopc).trans (if_pos hf)

/-- A word that decodes has no cause where its instruction executes, and otherwise the cause that the phase gives. -/
theorem commandCause_of_ok {s : State} {c : Command} {i : Instr} (h : decode s.params.laneAccess c = .ok i) :
    commandCause s.params.laneAccess s.phase c.cmd = if s.executes i = true then none else some .wrongPhase := by
  obtain ⟨hs, hrsv, harg⟩ := decode_ok h
  obtain ⟨ho, hw, hla⟩ := legal_of_decode h
  have hopc := mt (selectOpcode_eq_none_iff ..).mpr (by rw [hs]; nofun)
  have hf := (field_check_iff _ _ (opcode_of_selectOpcode hs)).mp ⟨hrsv, harg⟩
  refine (if_neg hopc).trans ((if_neg hf).trans ?_)
  have hphase := executes_iff_phase hw hla
  rw [← ho] at hphase
  by_cases he : s.executes i = true
  · exact (if_neg (hphase.mp he)).trans (if_pos he).symm
  · exact (if_pos (by_contra fun hn => he (hphase.mpr hn))).trans (if_neg he).symm

/-- A command that is accepted raises the cause R76 names, or executes where R76 names none. -/
theorem runCommand_of_ready {s : State} (c : Command) (hr : s.cmdReady = true) :
    (∃ k, commandCause s.params.laneAccess s.phase c.cmd = some k ∧ runCommand c s = .next (s.raise k)) ∨
    (∃ i, decode s.params.laneAccess c = .ok i ∧ s.executes i = true ∧ runCommand c s = .next (effectOf i s)) := by
  cases hd : decode s.params.laneAccess c with
  | error e => exact .inl ⟨_, commandCause_of_error hd _, runCommand_of_error hr hd⟩
  | ok i =>
    rw [runCommand_of_ok hd]
    cases he : s.executes i with
    | true => exact .inr ⟨i, rfl, he, exec_executes hr he⟩
    | false =>
      refine .inl ⟨.wrongPhase, by rw [commandCause_of_ok hd, he]; rfl, ?_⟩
      obtain ⟨-, hw, hla⟩ := legal_of_decode hd
      rw [exec_raises hr he, causeOf_of_legal hw hla he]

/-! ### The error record (R28, R182) -/

/-- A step that sets ERR accepts a command with a cause, and the cause is R76's. -/
theorem command_error_of_err_set {s t : State} (h : step s = .next t) (h0 : s.err = false) (h1 : t.err = true) :
    ∃ c k, s.currentAction = some (.command c) ∧ s.cmdReady = true ∧
      commandCause s.params.laneAccess s.phase c.cmd = some k ∧ t.cause = k.code := by
  have raised {c : Command} (ha : s.currentAction = some (.command c)) (hr : s.cmdReady = true) :
      ∃ k, commandCause s.params.laneAccess s.phase c.cmd = some k ∧ t.cause = k.code := by
    have hrun := step_command ha hr
    rcases runCommand_of_ready c hr with ⟨k, hk, hnext⟩ | ⟨i, -, -, hnext⟩ <;> rw [hnext] at hrun
    · exact ⟨k, hk, by simp [next_unique h hrun, h0]⟩
    · have herr : (effectOf i s).err = true := by simpa [next_unique h hrun] using h1
      by_cases hi : i = .init
      · simp [hi, effectOf] at herr
      · simp [(effectOf_error_of_ne_init s hi).1, h0] at herr
  cases step_case h with
  | raised c k ha hr => exact ⟨c, (raised ha hr).imp fun _ hk => ⟨ha, hr, hk⟩⟩
  | executed c i ha hr => exact ⟨c, (raised ha hr).imp fun _ hk => ⟨ha, hr, hk⟩⟩
  | engine => simp [engineStep_frame, h0] at h1
  | _ => simp [h0] at h1

/-- Settles O34: what a step does to the error record, and the cause of a command that sets it. -/
theorem errorStaysUntilInitOrReset : Obligations.ErrorStaysUntilInitOrReset := by
  refine fun s t h => ⟨fun herr => ?_, command_error_of_err_set h⟩
  rcases step_error_record h with ⟨he, hc⟩ | hclear | ⟨k, he, hc⟩
  · exact .inl ⟨he.trans herr, hc⟩
  · exact .inr hclear
  · exact .inl ⟨he, by rw [hc, if_pos herr]⟩

/-! ### pc (R31) -/

theorem command_of_accepts {s : State} (h : s.accepts = true) :
    ∃ c, s.currentAction = some (.command c) ∧ s.cmdReady = true := by
  simp only [State.accepts, State.cmdValid, Bool.and_eq_true] at h
  obtain ⟨hv, hr⟩ := h
  split at hv
  · exact ⟨_, ‹_›, hr⟩
  · cases hv

/-- Settles O45: the host's step moves `pc`, and an accepted command is the host's step. -/
theorem pcMovesOnlyForward : Obligations.PcMovesOnlyForward := by
  intro s t h
  obtain ⟨hprog, hhost, hother⟩ := step_program_pc h
  refine ⟨hprog, hhost, hother, fun hacc => ?_⟩
  obtain ⟨c, ha, hr⟩ := command_of_accepts hacc
  exact nextAgent_of_command ha hr

/-! ### The lanes (R21, R22) -/

/-- The commands of R21's table. -/
theorem effectOf_lanes_writer {s : State} {i : Instr} (h : (effectOf i s).lanes ≠ s.lanes) :
    i = .init ∨ (∃ n d, i = .absorb n d) ∨ i = .final ∨ ∃ k d, i = .loadLane k d := by
  cases i <;> simp_all [effectOf]

theorem lanes_of_stepExecutes {s t : State} {i : Instr} (h : step s = .next t) (hi : s.stepExecutes i) :
    t.lanes = (effectOf i s).lanes :=
  eq_of_registers_eq (registers_of_stepExecutes h hi) State.lanes

/-- Settles O47: the writers by what a step does to the registers, and the lanes each of them leaves. -/
theorem lanesAreWrittenByTheirRulesOnly : Obligations.LanesAreWrittenByTheirRulesOnly := by
  refine fun s t hpos h => ⟨fun hne => ?_, ?_, fun i d hi j hj => ?_, ?_⟩
  · rcases register_writer h State.lanes hne with ⟨hn, -⟩ | hs | ⟨i, hi, hw⟩
    · exact .inl hn
    · exact .inr (.inl hs)
    · rcases effectOf_lanes_writer hw with rfl | ⟨n, d, rfl⟩ | rfl | ⟨k, d, rfl⟩
      · exact .inr (.inr (.inl hi))
      · exact .inr (.inr (.inr (.inl ⟨n, d, hi⟩)))
      · exact .inr (.inr (.inr (.inr (.inl hi))))
      · exact .inr (.inr (.inr (.inr (.inr ⟨k, d, hi⟩))))
  · rintro (⟨n, d, hi⟩ | hi) <;> rw [lanes_of_stepExecutes h hi]
    · exact absorbEffect_capacity n.toNat d s hpos
    · exact finalEffect_capacity s hpos
  · rw [lanes_of_stepExecutes h hi]
    exact lane_setLane_ne _ _ hj.symm
  · rintro (hi | hs)
    · rw [lanes_of_stepExecutes h hi]; rfl
    · exact eq_of_registers_eq (registers_of_stepResets h hs) State.lanes

/-! ### PHASE (R23) -/

theorem effectOf_phase_writer {s : State} {i : Instr} (h : (effectOf i s).phase ≠ s.phase) : i = .final ∨ i = .init := by
  cases i <;> simp_all [effectOf]

/-- A sponge command in the other phase raises cause 3 in the step that accepts it (R23, R181). -/
theorem step_of_wrongPhase {s : State} {c : Command} {i : Instr} (ha : s.currentAction = some (.command c))
    (hr : s.cmdReady = true) (hd : decode s.params.laneAccess c = .ok i) (he : s.executes i = false) :
    step s = .next (s.raise .wrongPhase).advancePc := by
  obtain ⟨-, hw, hla⟩ := legal_of_decode hd
  rw [step_command ha hr, runCommand_of_ok hd, exec_raises hr he, causeOf_of_legal hw hla he]
  rfl

/-- Settles O48: the writers of PHASE, and the phase check of an ABSORB, FINAL or SQUEEZE that is accepted. -/
theorem phaseIsSetByInitFinalAndReset : Obligations.PhaseIsSetByInitFinalAndReset := by
  refine fun s t h => ⟨fun hi => ?_, ?_, fun hne => ?_, fun c i ha hr hd hphase => ?_⟩
  · exact eq_of_registers_eq (registers_of_stepExecutes h hi) State.phase
  · rintro (hi | hs)
    · exact eq_of_registers_eq (registers_of_stepExecutes h hi) State.phase
    · exact eq_of_registers_eq (registers_of_stepResets h hs) State.phase
  · rcases register_writer h State.phase hne with ⟨-, hw⟩ | hs | ⟨i, hi, hw⟩
    · simp [engineStep_frame] at hw
    · exact .inr (.inr hs)
    · rcases effectOf_phase_writer hw with rfl | rfl
      · exact .inl hi
      · exact .inr (.inl hi)
  · have he : s.executes i = false := by
      rcases hphase with ⟨⟨n, d, rfl⟩ | rfl, hp⟩ | ⟨rfl, hp⟩ <;> simp [State.executes, hp]
    exact next_unique h (step_of_wrongPhase ha hr hd he)

/-! ### POS and SQ (R24, R25) -/

theorem effectOf_pos_writer {s : State} {i : Instr} (h : (effectOf i s).pos ≠ s.pos) :
    i = .init ∨ (∃ n d, i = .absorb n d) ∨ i = .final := by
  cases i <;> simp_all [effectOf]

theorem effectOf_sq_writer {s : State} {i : Instr} (h : (effectOf i s).sq ≠ s.sq) :
    i = .init ∨ i = .final ∨ i = .squeeze := by
  cases i <;> simp_all [effectOf]

/-- The engine moves POS only past pending bytes, at the end of a permutation (R109). -/
theorem engineStep_pos_writer {s : State} (h : (engineStep s).pos ≠ s.pos) : s.round.toNat = 23 ∧ s.pendCnt ≠ 0 := by
  by_cases h23 : s.round.toNat = 23
  · refine ⟨h23, fun hz => h ?_⟩
    rw [(engineStep_last_lanes h23).2, hz]
    simp
  · exact absurd (engineStep_busy h23).2.1 h

/-- Settles O49: the writers of POS and of SQ, and their ranges, which the invariant keeps. -/
theorem posAndSqAreWrittenByTheirRulesOnly : Obligations.PosAndSqAreWrittenByTheirRulesOnly := by
  intro s t hs h
  have ht := step_keeps_spongeInv ((inv_iff s).mp hs).1 h
  refine ⟨fun hne => ?_, fun hne => ?_, ht.pos_lt, ht.sq_lt⟩
  · rcases register_writer h State.pos hne with ⟨hn, hw⟩ | hs | ⟨i, hi, hw⟩
    · exact .inr (.inr (.inr (.inr ⟨hn, engineStep_pos_writer hw⟩)))
    · exact .inr (.inr (.inr (.inl hs)))
    · rcases effectOf_pos_writer hw with rfl | ⟨n, d, rfl⟩ | rfl
      · exact .inl hi
      · exact .inr (.inl ⟨n, d, hi⟩)
      · exact .inr (.inr (.inl hi))
  · rcases register_writer h State.sq hne with ⟨-, hw⟩ | hs | ⟨i, hi, hw⟩
    · simp [engineStep_frame] at hw
    · exact .inr (.inr (.inr hs))
    · rcases effectOf_sq_writer hw with rfl | rfl | rfl
      · exact .inl hi
      · exact .inr (.inl hi)
      · exact .inr (.inr (.inl hi))

/-! ### BUSY and ROUND (R26) -/

/-- The command, executed from `s`, starts a permutation (R26). -/
def startsPermutation (s : State) : Instr → Prop
  | .init         => False
  | .absorb n _   => 136 ≤ s.pos.toNat + n.toNat
  | .final        => True
  | .squeeze      => s.sq.toNat = 16
  | .permute      => True
  | .loadLane _ _ => False
  | .readLane _   => False

/-- The commands of R26 that start a permutation, one by one. -/
theorem exists_startsPermutation_iff (s : State) :
    (∃ i, s.stepExecutes i ∧ startsPermutation s i) ↔
      (∃ n d, s.stepExecutes (.absorb n d) ∧ 136 ≤ s.pos.toNat + n.toNat) ∨ s.stepExecutes .final ∨
        (s.stepExecutes .squeeze ∧ s.sq.toNat = 16) ∨ s.stepExecutes .permute := by
  constructor
  · rintro ⟨i, hi, hstart⟩
    cases i with
    | absorb n d => exact .inl ⟨n, d, hi, hstart⟩
    | final => exact .inr (.inl hi)
    | squeeze => exact .inr (.inr (.inl ⟨hi, hstart⟩))
    | permute => exact .inr (.inr (.inr hi))
    | _ => exact hstart.elim
  · rintro (⟨n, d, hi, hfull⟩ | hi | ⟨hi, h16⟩ | hi)
    · exact ⟨.absorb n d, hi, hfull⟩
    · exact ⟨.final, hi, trivial⟩
    · exact ⟨.squeeze, hi, h16⟩
    · exact ⟨.permute, hi, trivial⟩

/-- From an idle engine the effect sets BUSY exactly where it starts a permutation, and ROUND is 0 either way. -/
theorem effectOf_busy_round {s : State} (i : Instr) (hpos : s.pos.toNat < 136) (hb : s.busy = false)
    (hround : s.round = 0) :
    ((effectOf i s).busy = true ↔ startsPermutation s i) ∧ (effectOf i s).round = 0 := by
  cases i with
  | absorb n d =>
    rcases absorb_cases n.toNat d s hpos with ⟨hlt, he⟩ | ⟨hge, he⟩ <;> rw [effectOf, he, startsPermutation]
    · simp [hb, hround, hlt]
    · simp [closeBlock, hge]
  | squeeze =>
    by_cases h16 : s.sq.toNat = 16
    · simp [effectOf, squeezeEffect_last s h16, startsPermutation, h16]
    · simp [effectOf, squeezeEffect_within s h16, startsPermutation, h16, hb, hround]
  | _ => simp [effectOf, startsPermutation, hb, hround]

/-- The engine step counts rounds 0 to 23, and the one after round 23 leaves BUSY and ROUND at 0 (R109). -/
theorem engineStep_round_busy {s : State} (hround : s.round.toNat < 24) (hb : s.busy = true) :
    ((engineStep s).round.toNat = if s.round.toNat = 23 then 0 else s.round.toNat + 1) ∧
      ((engineStep s).busy = true ↔ s.round.toNat ≠ 23) := by
  by_cases h23 : s.round.toNat = 23
  · obtain ⟨hbusy, hzero, -⟩ := engineStep_ends h23
    simp [h23, hbusy, hzero]
  · rw [engineStep_round h23]
    simp [h23, hb]
    omega

/-- Settles O50: a command's effect starts a permutation, and the engine counts its rounds and ends it, or reset does. -/
theorem busyAndRoundFollowThePermutation : Obligations.BusyAndRoundFollowThePermutation := by
  intro s t hs h
  obtain ⟨hsponge, -⟩ := (inv_iff s).mp hs
  have ht := step_keeps_spongeInv hsponge h
  have executed {i : Instr} (hi : s.stepExecutes i) : (t.busy = true ↔ startsPermutation s i) ∧ t.round = 0 := by
    obtain ⟨hb, -⟩ := idle_of_stepExecutes hi
    have hregs := registers_of_stepExecutes h hi
    rw [eq_of_registers_eq hregs State.busy, eq_of_registers_eq hregs State.round]
    exact effectOf_busy_round i hsponge.pos_lt hb (hsponge.idle hb).1
  have engine (hn : s.stepIsEngine) : (t.round.toNat = if s.round.toNat = 23 then 0 else s.round.toNat + 1) ∧
      (t.busy = true ↔ s.round.toNat ≠ 23) := by
    have hregs := registers_of_stepIsEngine h hn
    rw [eq_of_registers_eq hregs State.busy, eq_of_registers_eq hregs State.round]
    exact engineStep_round_busy hsponge.round_lt (busy_of_stepIsEngine hn).1
  have reset (hr : s.stepResets) : t.busy = false ∧ t.round = 0 := by
    have hregs := registers_of_stepResets h hr
    exact ⟨eq_of_registers_eq hregs State.busy, eq_of_registers_eq hregs State.round⟩
  have writer := register_writer h State.busy
  rw [← exists_startsPermutation_iff]
  refine ⟨fun h0 h1 => ?_, fun h1 h0 => ?_, fun hn => (engine hn).1, fun hn => (engine hn).2, reset, ?_,
    fun h0 => (ht.idle h0).1⟩
  · rcases writer (by simp [h0, h1]) with ⟨hn, -⟩ | hr | ⟨i, hi, -⟩
    · simp [(busy_of_stepIsEngine hn).1] at h0
    · simp [(reset hr).1] at h1
    · exact ⟨(executed hi).2, i, hi, (executed hi).1.mp h1⟩
  · rcases writer (by simp [h0, h1]) with ⟨hn, -⟩ | hr | ⟨i, hi, -⟩
    · exact .inl ⟨hn, by_contra fun h23 => by simp [(engine hn).2.mpr h23] at h0⟩
    · exact .inr hr
    · simp [(idle_of_stepExecutes hi).1] at h1
  · rintro ⟨i, hi, hstart⟩
    exact (executed hi).1.mpr hstart

/-! ### RESULT (R29) -/

theorem effectOf_result_writer {s : State} {i : Instr} (h : (effectOf i s).result ≠ s.result) :
    i = .squeeze ∨ (∃ k, i = .readLane k) ∨ i = .init := by
  cases i <;> simp_all [effectOf]

theorem result_of_stepExecutes {s t : State} {i : Instr} (h : step s = .next t) (hi : s.stepExecutes i) :
    t.result = (effectOf i s).result :=
  eq_of_registers_eq (registers_of_stepExecutes h hi) State.result

/-- Settles O51: the values the two commands, INIT and reset give, and that nothing else writes RESULT. -/
theorem resultIsWrittenByItsRulesOnly : Obligations.ResultIsWrittenByItsRulesOnly := by
  refine fun s t h => ⟨fun hi => ?_, fun i hi => ?_, ?_, fun hne => ?_⟩
  · simp [result_of_stepExecutes h hi, effectOf]
  · simp [result_of_stepExecutes h hi, effectOf]
  · rintro (hi | hr)
    · simp [result_of_stepExecutes h hi, effectOf]
    · exact eq_of_registers_eq (registers_of_stepResets h hr) State.result
  · rcases register_writer h State.result hne with ⟨-, hw⟩ | hr | ⟨i, hi, hw⟩
    · simp [engineStep_frame] at hw
    · exact .inr (.inr (.inr hr))
    · rcases effectOf_result_writer hw with rfl | ⟨k, rfl⟩ | rfl
      · exact .inl hi
      · exact .inr (.inl ⟨k, hi⟩)
      · exact .inr (.inr (.inl hi))

end Sys2Proof.Machine
end

section
/-! PROOFS. No sponge command moves a capacity byte (R22), STATUS and the reset values (R34, R36), and the port: the
decoded instruction, the placed command, and that no command runs inside a permutation (R20, R31, R32). -/

namespace Sys2Proof.Machine

open Sys2Proof.Config

/-! ### The capacity (R22) -/

/-- Closing a block reads and writes no lane. -/
theorem closeBlock_setLanes (rest : List Byte) (s : State) (a : Lanes) :
    closeBlock rest (s.setLanes a) = (closeBlock rest s).setLanes a := rfl

/-- With other lanes of the same rate, a command that is no lane command writes the same registers and the same rate
lanes. -/
theorem effectOf_setLanes {s : State} {a : Lanes} {i : Instr} (hpos : s.pos.toNat < 136) (hsq : s.sq.toNat < 17)
    (hi : i.needsLaneAccess = false) (hrate : sameRate a s.lanes) :
    effectOf i (s.setLanes a) = (effectOf i s).setLanes (effectOf i (s.setLanes a)).lanes ∧
      sameRate (effectOf i (s.setLanes a)).lanes (effectOf i s).lanes := by
  have xored (bs : List Byte) : sameRate (xorBytes a s.pos.toNat bs) (xorBytes s.lanes s.pos.toNat bs) :=
    fun k hk => lane_xorBytes_congr bs _ _ _ k (by simp only [rateLanes] at hk; omega) (hrate k hk)
  cases i with
  | init => exact ⟨rfl, fun _ _ => rfl⟩
  | absorb n d =>
    rcases absorb_cases n.toNat d s hpos with ⟨hlt, he⟩ | ⟨hge, he⟩
    · have he' := absorbEffect_within n.toNat d (s.setLanes a) hlt
      simp only [effectOf, he, he', State.setLanes_lanes, State.setLanes_pos]
      exact ⟨rfl, xored _⟩
    · have he' := absorbEffect_full n.toNat d (s.setLanes a) hge hpos.le
      simp only [effectOf, he, he', State.setLanes_lanes, State.setLanes_pos, closeBlock_setLanes]
      exact ⟨rfl, xored _⟩
  | final =>
    refine ⟨rfl, fun k hk => ?_⟩
    have h25 : k < 25 := by simp only [rateLanes] at hk; omega
    exact lane_xorSb_congr _ _ _ k _ h25 (lane_xorSb_congr _ _ _ k _ h25 (hrate k hk))
  | squeeze =>
    by_cases h16 : s.sq.toNat = 16
    · have he' := squeezeEffect_last (s.setLanes a) h16
      simp only [effectOf, squeezeEffect_last s h16, he', State.setLanes_lanes, hrate 16 (by decide)]
      exact ⟨rfl, hrate⟩
    · have he' := squeezeEffect_within (s.setLanes a) h16
      simp only [effectOf, squeezeEffect_within s h16, he', State.setLanes_lanes, State.setLanes_sq, hrate s.sq.toNat hsq]
      exact ⟨rfl, hrate⟩
  | permute => exact ⟨rfl, hrate⟩
  | loadLane k d => cases hi
  | readLane k => cases hi

/-- The capacity stays as it is but for INIT's zeros. -/
theorem effectOf_capacity {s : State} {i : Instr} (hpos : s.pos.toNat < 136) (hi : i.needsLaneAccess = false) :
    sameCapacity (effectOf i s).lanes s.lanes ∨ (i = .init ∧ (effectOf i s).lanes = zeroLanes) := by
  cases i with
  | init => exact .inr ⟨rfl, rfl⟩
  | absorb n d => exact .inl (absorbEffect_capacity n.toNat d s hpos)
  | final => exact .inl (finalEffect_capacity s hpos)
  | squeeze => exact .inl fun k _ _ => by simp [effectOf]
  | permute => exact .inl fun _ _ _ => rfl
  | loadLane k d => cases hi
  | readLane k => cases hi

/-- Settles O32: both runs hold, raise the same cause or have the effect of the same command, since none of the checks
reads a lane. -/
theorem spongeCommandsNeverMoveTheCapacity : Obligations.SpongeCommandsNeverMoveTheCapacity := by
  rintro s a i ⟨hpos, hsq, -⟩ hi hrate
  rcases exec_cases i s with ⟨hr, he⟩ | ⟨hr, hx, he⟩ | ⟨hr, hx, he⟩
  · exact ⟨_, _, he, exec_held i hr, rfl, hrate, rfl, rfl, .inl fun _ _ _ => rfl⟩
  · have he' : exec i (s.setLanes a) = .next ((s.setLanes a).raise (causeOf i (s.setLanes a))) := exec_raises hr hx
    have hc : causeOf i (s.setLanes a) = causeOf i s := by cases i <;> rfl
    exact ⟨_, _, he, he', by rw [hc]; rfl, hrate, by rw [hc]; rfl, rfl, .inl fun _ _ _ => rfl⟩
  · have he' : exec i (s.setLanes a) = .next (effectOf i (s.setLanes a)) := exec_executes hr hx
    obtain ⟨hsame, hrate'⟩ := effectOf_setLanes hpos hsq hi hrate
    exact ⟨_, _, he, he', hsame, hrate', by rw [hsame]; rfl, by rw [hsame]; rfl, effectOf_capacity hpos hi⟩

/-! ### STATUS and the reset state (R34, R36, R37) -/

/-- A field of STATUS is what its bits are. -/
theorem statusWord_field {s : State} {n : Nat} (p : Nat) {v : BitVec n}
    (h : ∀ k, k < n → s.statusWord.getLsbD (p + k) = v.getLsbD k) : s.statusWord.extractLsb' p n = v := by
  apply BitVec.eq_of_getLsbD_eq
  intro k hk
  simp [hk, h k hk]

/-- Settles O7: each field's bits, read off `statusWord_getLsbD`. -/
theorem statusFieldsShowTheState : Obligations.StatusFieldsShowTheState := by
  intro s
  rw [← flagBit_eq, ← flagBit_eq, ← flagBit_eq, ← phaseBit_eq]
  refine ⟨?_, ?_, ?_, ?_, ?_, ?_, ?_, ?_, ?_, ?_, ?_⟩
  all_goals
    refine statusWord_field _ fun k hk => ?_
    rw [statusWord_getLsbD]
    interval_cases k <;> simp

theorem registersReset_resetWith (p : Params) : (State.resetWith p).RegistersReset :=
  ⟨rfl, rfl, rfl, rfl, rfl, rfl, rfl, rfl, rfl, rfl⟩

/-- Settles O6: STATUS shows LANE_ACCESS at bit 3 and 0 elsewhere. -/
theorem resetValuesOfEveryRegister : Obligations.ResetValuesOfEveryRegister := by
  refine ⟨fun p => ⟨rfl, registersReset_resetWith p, rfl, ?_⟩, Params.reference, rfl, rfl⟩
  obtain ⟨laneAccess, roundCycles⟩ := p
  cases laneAccess <;> simp [State.statusWord, State.resetWith, flagBit, Phase.bit]

/-- The reset state meets the invariant part by part (R36, R37). -/
theorem inv_resetWith {p : Params} (hp : p.wf = true) : (State.resetWith p).Inv :=
  (inv_iff _).mpr ⟨spongeInv_of_registersReset (registersReset_resetWith p), errorInv_of_clear rfl rfl,
    fun _ => registersReset_resetWith p, hp, Nat.le_refl 0⟩

/-- Settles O11: `inv_resetWith`, of every build and of the reference build. -/
theorem invariantHoldsAtReset : Obligations.InvariantHoldsAtReset :=
  ⟨fun _ hp => inv_resetWith hp, inv_resetWith rfl⟩

/-! ### The port (R20, R31, R32) -/

/-- Settles O36: the step of an accepted command is `runCommand` with `pc` moved on. -/
theorem stepRunsTheDecodedInstr : Obligations.StepRunsTheDecodedInstr := by
  intro s c ha hr
  rw [step_command ha hr]
  refine ⟨fun i hd => ?_, fun hd => ?_, fun hd => ?_⟩
  · rw [runCommand_of_ok hd]
    exact ⟨fun t ht => by rw [ht]; rfl, fun r hf => by rw [hf]; rfl, fun r hf => by rw [hf]; rfl⟩
  · rw [runCommand_of_error hr hd]; rfl
  · rw [runCommand_of_error hr hd]; rfl

/-- The list's own first actions, and reads where it is shorter, fill the places below the placed action. -/
theorem length_below_placed (p : List HostAction) (n : Nat) :
    (p.take n ++ List.replicate (n - p.length) HostAction.rdStatus).length = n := by
  simp; omega

theorem placeAction_getElem?_self (p : List HostAction) (n : Nat) (a : HostAction) :
    (placeAction p n a)[n]? = some a := by
  rw [placeAction, List.getElem?_append_right (length_below_placed p n).le, length_below_placed, Nat.sub_self]
  rfl

theorem placeAction_getElem?_lt {p : List HostAction} {n k : Nat} (a : HostAction) (hn : k < n) (hp : k < p.length) :
    (placeAction p n a)[k]? = p[k]? := by
  rw [placeAction, List.getElem?_append_left (by rwa [length_below_placed]),
    List.getElem?_append_left (by simp [hn, hp]), List.getElem?_take_of_lt hn]

/-- Settles O37: the placed action stands at `pc`, and the list below it is the old one. -/
theorem placedWordIsTheNextCommand : Obligations.PlacedWordIsTheNextCommand :=
  fun s _ _ => ⟨placeAction_getElem?_self s.program s.pc _, rfl, fun _ hn hp => placeAction_getElem?_lt _ hn hp⟩

/-- A command is accepted only from an idle engine (R33). -/
theorem busy_of_accepts {s : State} (h : s.accepts = true) : s.busy = false := by
  obtain ⟨-, -, hr⟩ := command_of_accepts h
  exact ((cmdReady_iff s).mp hr).1

/-- Settles O46: accepting needs BUSY = 0 and an engine step BUSY = 1. -/
theorem noCommandInsideAPermutation : Obligations.NoCommandInsideAPermutation := by
  intro s
  have apart (hacc : s.accepts = true) (hb : s.busy = true) : False :=
    Bool.false_ne_true ((busy_of_accepts hacc).symm.trans hb)
  refine ⟨fun ⟨hacc, heng⟩ => apart hacc ((engineEnabled_iff s).mp heng).1,
    fun hb hr => ⟨(engineEnabled_iff s).mpr ⟨hb, hr⟩, ?_⟩, fun heng => ((engineEnabled_iff s).mp heng).1⟩
  exact Bool.eq_false_iff.mpr fun hacc => apart hacc hb

end Sys2Proof.Machine
end

section
/-! PROOFS. The state as bytes and as lanes (R50), the lane-word ports that carry a lane (R55), and the host's reads of
STATUS and RESULT (R57). -/

namespace Sys2Proof.Machine

/-! ### The state-byte space (R50) -/

theorem sb_getLsbD (a : Lanes) (j : Nat) {k : Nat} (hk : k < 8) :
    (sb a j).getLsbD k = (lane a (j / 8)).getLsbD (8 * (j % 8) + k) := by
  rw [sb, wordByte_getLsbD, decide_eq_true hk, Bool.true_and]

/-- State byte `8i + t` is byte `t` of lane `i`. -/
theorem sb_eq_wordByte_lane (a : Lanes) (i : Nat) {t : Nat} (ht : t < 8) : sb a (8 * i + t) = wordByte (lane a i) t := by
  have hlane : (8 * i + t) / 8 = i := by omega
  have hbyte : (8 * i + t) % 8 = t := by omega
  rw [sb, hlane, hbyte]

/-- A word's bytes are its base-256 digits. -/
theorem wordByte_eq_digit (v : BitVec 64) (t : Nat) : wordByte v t = BitVec.ofNat 8 (v.toNat / 256 ^ t) := by
  apply BitVec.eq_of_toNat_eq
  rw [wordByte_toNat, BitVec.toNat_ofNat, Nat.pow_mul]

/-- The eight bytes of a lane, read in order, are the lane's number. -/
theorem memRead_lane (a : Lanes) (i : Nat) : memRead a (8 * i) 8 = (lane a i).toNat := by
  have hdigits (k : Nat) (hk : k < 8) : sb a (8 * i + k) = BitVec.ofNat 8 ((lane a i).toNat / 256 ^ k) := by
    rw [sb_eq_wordByte_lane a i hk, wordByte_eq_digit]
  rw [memRead_of_digits hdigits]
  exact Nat.mod_eq_of_lt (lane a i).isLt

/-- Settles O8: a state byte's bits, and a lane as the number of its eight bytes. -/
theorem stateBytesAreTheLanesLittleEndian : Obligations.StateBytesAreTheLanesLittleEndian :=
  fun a => ⟨fun j _ _ hk => sb_getLsbD a j hk, fun i _ => memRead_lane a i⟩

/-! ### The lane-word ports (R55) -/

/-- A well-formed lane command executes in a build that has it, whatever the phase (R160, R161). -/
theorem executes_of_needsLaneAccess {s : State} {i : Instr} (hn : i.needsLaneAccess = true) (hw : i.wf = true)
    (hla : s.params.laneAccess = true) : s.executes i = true := by
  cases i with
  | loadLane k d => exact Bool.and_eq_true_iff.mpr ⟨hla, hw⟩
  | readLane k => exact Bool.and_eq_true_iff.mpr ⟨hla, hw⟩
  | _ => cases hn

/-- The state bytes of a lane just written are the bytes of the word written to it. -/
theorem sb_setLane_same (a : Lanes) {i t : Nat} (v : Lane) (hi : i < 25) (ht : t < 8) :
    sb (setLane a i v) (8 * i + t) = wordByte v t := by
  rw [sb_eq_wordByte_lane _ i ht, lane_setLane_same a v hi]

/-- Settles O10: the lane LOAD_LANE writes and the lane READ_LANE returns, byte by byte. -/
theorem laneWordsCarryStateBytesInOrder : Obligations.LaneWordsCarryStateBytesInOrder := by
  intro s i d t hr hla hi ht
  have hi' : laneIndexWf i = true := decide_eq_true hi
  refine ⟨⟨_, exec_executes hr (executes_of_needsLaneAccess rfl hi' hla), ?_⟩,
    ⟨_, exec_executes hr (executes_of_needsLaneAccess rfl hi' hla), ?_⟩⟩
  · exact sb_setLane_same s.lanes d (by omega) ht
  · exact (sb_eq_wordByte_lane s.lanes i.toNat ht).symm

/-! ### Reads of STATUS and RESULT (R57) -/

theorem step_host {s : State} (h : s.nextAgent = some .host) : step s = hostStep s.takeTurn := by
  simp [step, agentStep, h]

/-- The mark of a read: the observation and `pc`, with the schedule's next choice used up. -/
theorem takeTurn_observe_advancePc (s : State) (o : Observation) :
    ∃ l, (s.takeTurn.observe o).advancePc =
      { s with pc := s.pc + 1, observed := s.observed ++ [o], schedule := l } := by
  obtain ⟨l, hl⟩ := takeTurn_eq_setSchedule s
  exact ⟨l, by rw [hl]; rfl⟩

theorem step_rdStatus {s : State} (h : s.nextAgent = some .host) (ha : s.currentAction = some .rdStatus) :
    step s = .next (s.takeTurn.observe (.status s.statusWord)).advancePc := by
  simp [step_host h, hostStep, ha]

theorem step_rdResult {s : State} (h : s.nextAgent = some .host) (ha : s.currentAction = some .rdResult) :
    step s = .next (s.takeTurn.observe (.result s.result)).advancePc := by
  simp [step_host h, hostStep, ha, State.resultPort]

/-- Settles O40: either read is the host's step, which leaves the mark of a read and nothing else. -/
theorem readsReturnThePortsAndChangeNothing : Obligations.ReadsReturnThePortsAndChangeNothing := by
  refine fun s h => ⟨fun ha => ?_, fun ha => ?_⟩
  · obtain ⟨l, hl⟩ := takeTurn_observe_advancePc s (.status s.statusWord)
    exact ⟨l, hl ▸ step_rdStatus h ha⟩
  · obtain ⟨l, hl⟩ := takeTurn_observe_advancePc s (.result s.result)
    exact ⟨l, hl ▸ step_rdResult h ha⟩

end Sys2Proof.Machine
end

section
/-! PROOFS. The encoding: the decoder as the inverse of the encoder (R75, R80), the opcode map as rows (R73, R75), the
checks of an accepted command (R76), what DATA can change (R74), and ABSORB_BYTES (R81). -/

namespace Sys2Proof.Machine

open Sys2Proof.Config Sys2Proof.Laws.EncodedFields

/-! ### DATA in an instruction (R74) -/

/-- The instruction with its data operand replaced, where it has one (R74). -/
def withData (d : DataWord) : Instr → Instr
  | .absorb n _   => .absorb n d
  | .loadLane k _ => .loadLane k d
  | i             => i

theorem withData_encode_data (i : Instr) : withData (encode i).data i = i := by cases i <;> rfl

theorem withData_of_opcode_ne {i : Instr} (d : DataWord) (h2 : opcodeOf i ≠ 2) (h6 : opcodeOf i ≠ 6) :
    withData d i = i := by
  cases i with
  | absorb n e => exact absurd rfl h2
  | loadLane k e => exact absurd rfl h6
  | _ => rfl

theorem selectOpcode_withData (la : Bool) (o : BitVec 4) (a : BitVec 5) (d d' : DataWord) :
    selectOpcode la o a d' = (selectOpcode la o a d).map (withData d') := by
  unfold selectOpcode
  cases la <;> split <;> rfl

/-- With another DATA a word fails the same check, or selects the same instruction with that DATA. -/
theorem decode_withData (la : Bool) (w : CmdWord) (d d' : DataWord) :
    decode la ⟨w, d'⟩ = (decode la ⟨w, d⟩).map (withData d') := by
  simp only [decode, selectOpcode_withData la _ _ d d']
  cases selectOpcode la (opcField w) (argField w) d with
  | none => rfl
  | some i =>
    dsimp only [Option.map_some]
    split <;> rfl

/-! ### Decoding as the inverse of encoding (R75, R80) -/

theorem encode_cmd (i : Instr) : (encode i).cmd = commandWord (opcodeOf i) (argOf i) := by cases i <;> rfl

theorem argLegal_argOf (i : Instr) : argLegal (opcodeOf i) (argOf i) = i.wf := by cases i <;> rfl

theorem selectOpcode_opcodeOf {la : Bool} {i : Instr} (hla : i.needsLaneAccess = true → la = true) (d : DataWord) :
    selectOpcode la (opcodeOf i) (argOf i) d = some (withData d i) := by
  cases i with
  | loadLane k e => exact if_pos (hla rfl)
  | readLane k => exact if_pos (hla rfl)
  | _ => rfl

/-- The word of a well-formed command decodes to it, with the DATA that stands beside the word. -/
theorem decode_encode_cmd {la : Bool} {i : Instr} (hw : i.wf = true) (hla : i.needsLaneAccess = true → la = true)
    (d : DataWord) : decode la ⟨(encode i).cmd, d⟩ = .ok (withData d i) := by
  rw [encode_cmd]
  exact decode_of_word (selectOpcode_opcodeOf hla d) (by rw [argLegal_argOf, hw])

/-- Settles O1: the word decodes to the command with its DATA, which is the encoder's own. -/
theorem decodeOfEncodeIsTheInstr : Obligations.DecodeOfEncodeIsTheInstr := fun _ i hw hla =>
  (decode_encode_cmd hw hla (encode i).data).trans (congrArg _ (withData_encode_data i))

/-- What the decoder reads besides OPC: the ARG of the instruction, and its DATA. -/
theorem operands_of_decode {la : Bool} {c : Command} {i : Instr} (h : decode la c = .ok i) :
    argField c.cmd = argOf i ∧ withData c.data i = i := by
  obtain ⟨hs, -, ha⟩ := decode_ok h
  obtain ⟨ho, -, hla⟩ := legal_of_decode h
  rw [ho] at hs ha
  have noArg (h0 : decide ((argField c.cmd).toNat = 0) = true) : argField c.cmd = 0 :=
    BitVec.eq_of_toNat_eq (of_decide_eq_true h0)
  cases i with
  | absorb n d => cases hs; exact ⟨rfl, rfl⟩
  | loadLane k d => cases (if_pos (hla rfl)).symm.trans hs; exact ⟨rfl, rfl⟩
  | readLane k => cases (if_pos (hla rfl)).symm.trans hs; exact ⟨rfl, rfl⟩
  | _ => exact ⟨noArg ha, rfl⟩

/-- A command decodes to an instruction exactly where the instruction is a command of the build and the word is the
instruction's own, with its DATA beside it. -/
theorem decode_eq_ok_iff (la : Bool) (c : Command) (i : Instr) :
    decode la c = .ok i ↔
      i.wf = true ∧ (i.needsLaneAccess = true → la = true) ∧ (encode i).cmd = c.cmd ∧ withData c.data i = i := by
  constructor
  · intro h
    obtain ⟨-, hrsv, -⟩ := decode_ok h
    obtain ⟨ho, hw, hla⟩ := legal_of_decode h
    obtain ⟨ha, hd⟩ := operands_of_decode h
    exact ⟨hw, hla, by rw [encode_cmd, ← ho, ← ha, commandWord_of_fields _ hrsv], hd⟩
  · rintro ⟨hw, hla, hword, hd⟩
    have hdec := decode_encode_cmd hw hla c.data
    rwa [hword, hd] at hdec

/-! ### The opcode map (R73, R75) -/

/-- The words of each command. -/
theorem decode_eq_ok_iff_word (la : Bool) (w : CmdWord) (d : DataWord) (i : Instr) :
    decode la ⟨w, d⟩ = .ok i ↔
      (i = .init ∧ w = 0x10000000) ∨
      (∃ n : BitVec 5, i = .absorb n d ∧ 1 ≤ n.toNat ∧ n.toNat ≤ 8 ∧ w = 0x20000000 + n.setWidth 32) ∨
      (i = .final ∧ w = 0x30000000) ∨
      (i = .squeeze ∧ w = 0x40000000) ∨
      (i = .permute ∧ w = 0x50000000) ∨
      (∃ k : BitVec 5, i = .loadLane k d ∧ la = true ∧ k.toNat ≤ 24 ∧ w = 0x60000000 + k.setWidth 32) ∨
      (∃ k : BitVec 5, i = .readLane k ∧ la = true ∧ k.toNat ≤ 24 ∧ w = 0x70000000 + k.setWidth 32) := by
  rw [decode_eq_ok_iff]
  constructor
  · rintro ⟨hw, hla, rfl, hd⟩
    cases i with
    | init => exact .inl ⟨rfl, commandWord_init⟩
    | absorb n e =>
      obtain ⟨h1, h8⟩ := of_decide_eq_true hw
      exact .inr (.inl ⟨n, hd.symm, h1, h8, commandWord_absorb n⟩)
    | final => exact .inr (.inr (.inl ⟨rfl, commandWord_final⟩))
    | squeeze => exact .inr (.inr (.inr (.inl ⟨rfl, commandWord_squeeze⟩)))
    | permute => exact .inr (.inr (.inr (.inr (.inl ⟨rfl, commandWord_permute⟩))))
    | loadLane k e =>
      exact .inr (.inr (.inr (.inr (.inr (.inl ⟨k, hd.symm, hla rfl, of_decide_eq_true hw, commandWord_loadLane k⟩)))))
    | readLane k =>
      exact .inr (.inr (.inr (.inr (.inr (.inr ⟨k, rfl, hla rfl, of_decide_eq_true hw, commandWord_readLane k⟩)))))
  · rintro (⟨rfl, rfl⟩ | ⟨n, rfl, h1, h8, rfl⟩ | ⟨rfl, rfl⟩ | ⟨rfl, rfl⟩ | ⟨rfl, rfl⟩ | ⟨k, rfl, hla, hk, rfl⟩ |
      ⟨k, rfl, hla, hk, rfl⟩)
    · exact ⟨rfl, nofun, commandWord_init, rfl⟩
    · exact ⟨decide_eq_true ⟨h1, h8⟩, nofun, commandWord_absorb n, rfl⟩
    · exact ⟨rfl, nofun, commandWord_final, rfl⟩
    · exact ⟨rfl, nofun, commandWord_squeeze, rfl⟩
    · exact ⟨rfl, nofun, commandWord_permute, rfl⟩
    · exact ⟨decide_eq_true hk, fun _ => hla, commandWord_loadLane k, rfl⟩
    · exact ⟨decide_eq_true hk, fun _ => hla, commandWord_readLane k, rfl⟩

/-- The mask of R75 that leaves ARG free keeps OPC and RSV. -/
theorem and_argMask_eq_iff (w : CmdWord) (o : BitVec 4) :
    w &&& 0xFFFFFFE0 = commandWord o 0 ↔ opcField w = o ∧ rsvField w = 0 := by
  have hopc : opcField (w &&& 0xFFFFFFE0) = opcField w := by
    rw [opcField, BitVec.extractLsb'_and]; exact BitVec.and_allOnes
  have hrsv : rsvField (w &&& 0xFFFFFFE0) = rsvField w := by
    rw [rsvField, BitVec.extractLsb'_and]; exact BitVec.and_allOnes
  have harg : argField (w &&& 0xFFFFFFE0) = 0 := by
    rw [argField, BitVec.extractLsb'_and]; exact BitVec.and_zero
  constructor
  · intro h
    rw [h] at hopc hrsv
    exact ⟨by rw [← hopc, opcField_commandWord], by rw [← hrsv, rsvField_commandWord]⟩
  · rintro ⟨rfl, h0⟩
    rw [← commandWord_of_fields (w &&& 0xFFFFFFE0) (hrsv.trans h0), hopc, harg]

/-- A row whose mask leaves ARG free matches the words of its OPC with ARG in its range. -/
theorem matchesWord_argMask (name : String) (o : BitVec 4) (lo hi : Nat) (w : CmdWord) :
    (⟨name, commandWord o 0, 0xFFFFFFE0, lo, hi⟩ : OpcodeRow).matchesWord w = true ↔
      opcField w = o ∧ rsvField w = 0 ∧ lo ≤ (argField w).toNat ∧ (argField w).toNat ≤ hi := by
  simp only [OpcodeRow.matchesWord, Bool.and_eq_true, beq_iff_eq, decide_eq_true_eq, and_argMask_eq_iff, and_assoc]

/-- A row whose mask fixes every bit matches the one word of its OPC. -/
theorem matchesWord_fullMask (name : String) (o : BitVec 4) (w : CmdWord) :
    (⟨name, commandWord o 0, 0xFFFFFFFF, 0, 0⟩ : OpcodeRow).matchesWord w = true ↔
      opcField w = o ∧ rsvField w = 0 ∧ (argField w).toNat = 0 := by
  have hmask : w &&& 0xFFFFFFFF = w := BitVec.and_allOnes
  simp only [OpcodeRow.matchesWord, Bool.and_eq_true, beq_iff_eq, decide_eq_true_eq, hmask, Nat.zero_le, and_true,
    Nat.le_zero]
  constructor
  · rintro ⟨rfl, h0⟩
    exact ⟨opcField_commandWord o 0, rsvField_commandWord o 0, h0⟩
  · rintro ⟨rfl, hr, h0⟩
    have ha : argField w = 0 := BitVec.eq_of_toNat_eq h0
    exact ⟨by rw [← ha, commandWord_of_fields w hr], h0⟩

/-- Each row matches the words of its pattern's OPC with RSV = 0 and ARG in that opcode's range. -/
theorem matchesWord_iff {r : OpcodeRow} (hr : r ∈ opcodeTable) (w : CmdWord) :
    r.matchesWord w = true ↔
      opcField w = opcField r.pattern ∧ rsvField w = 0 ∧ argLegal (opcField r.pattern) (argField w) = true := by
  simp only [opcodeTable, List.mem_cons, List.not_mem_nil, or_false] at hr
  rcases hr with rfl | rfl | rfl | rfl | rfl | rfl | rfl
  · exact (matchesWord_fullMask _ 1 w).trans (by simp [argLegal, opcField])
  · exact (matchesWord_argMask _ 2 1 8 w).trans (by simp [argLegal, byteCountLegal, opcField])
  · exact (matchesWord_fullMask _ 3 w).trans (by simp [argLegal, opcField])
  · exact (matchesWord_fullMask _ 4 w).trans (by simp [argLegal, opcField])
  · exact (matchesWord_fullMask _ 5 w).trans (by simp [argLegal, opcField])
  · exact (matchesWord_argMask _ 6 0 24 w).trans (by simp [argLegal, laneIndexLegal, opcField])
  · exact (matchesWord_argMask _ 7 0 24 w).trans (by simp [argLegal, laneIndexLegal, opcField])

/-- The rows differ in their OPC. -/
theorem row_eq_of_opcField_eq :
    ∀ r ∈ opcodeTable, ∀ q ∈ opcodeTable, opcField r.pattern = opcField q.pattern → r = q := by decide

/-- Each row's OPC is a legal one, and the two lane opcodes stand in the rows of the lane commands. -/
theorem row_opcode_legal : ∀ r ∈ opcodeTable, (opcField r.pattern).toNat ∈ [1, 2, 3, 4, 5, 6, 7] ∧
    ((opcField r.pattern).toNat ∈ [6, 7] → r.mnemonic = "LOAD_LANE" ∨ r.mnemonic = "READ_LANE") := by decide

/-- A command has a row, which is the one with its OPC. -/
theorem exists_row (i : Instr) : ∃ r ∈ opcodeTable, opcField r.pattern = opcodeOf i ∧ r.mnemonic = i.mnemonic := by
  cases i with
  | init => exact ⟨opcodeTable[0], List.getElem_mem _, rfl, rfl⟩
  | absorb n d => exact ⟨opcodeTable[1], List.getElem_mem _, rfl, rfl⟩
  | final => exact ⟨opcodeTable[2], List.getElem_mem _, rfl, rfl⟩
  | squeeze => exact ⟨opcodeTable[3], List.getElem_mem _, rfl, rfl⟩
  | permute => exact ⟨opcodeTable[4], List.getElem_mem _, rfl, rfl⟩
  | loadLane k d => exact ⟨opcodeTable[5], List.getElem_mem _, rfl, rfl⟩
  | readLane k => exact ⟨opcodeTable[6], List.getElem_mem _, rfl, rfl⟩

theorem needsLaneAccess_iff_mnemonic (i : Instr) :
    i.needsLaneAccess = true ↔ i.mnemonic = "LOAD_LANE" ∨ i.mnemonic = "READ_LANE" := by
  cases i <;> simp [Instr.needsLaneAccess, Instr.mnemonic]

/-- A word decodes to a command with a mnemonic exactly where that mnemonic's row matches it, in a build that has it. -/
theorem decode_mnemonic_iff (la : Bool) (c : Command) (name : String) :
    (∃ i, decode la c = .ok i ∧ i.mnemonic = name) ↔
      ∃ r ∈ opcodeTable, r.mnemonic = name ∧ r.matchesWord c.cmd = true ∧
        (name = "LOAD_LANE" ∨ name = "READ_LANE" → la = true) := by
  constructor
  · rintro ⟨i, hd, rfl⟩
    obtain ⟨-, hrsv, harg⟩ := decode_ok hd
    obtain ⟨ho, -, hla⟩ := legal_of_decode hd
    obtain ⟨r, hr, hro, hrn⟩ := exists_row i
    rw [ho, ← hro] at harg
    exact ⟨r, hr, hrn, (matchesWord_iff hr _).mpr ⟨ho.trans hro.symm, hrsv, harg⟩,
      fun hn => hla ((needsLaneAccess_iff_mnemonic i).mpr hn)⟩
  · rintro ⟨r, hr, rfl, hm, hla⟩
    obtain ⟨ho, hrsv, harg⟩ := (matchesWord_iff hr _).mp hm
    obtain ⟨hlegal, hlane⟩ := row_opcode_legal r hr
    rw [← ho] at harg hlegal hlane
    cases hs : selectOpcode la (opcField c.cmd) (argField c.cmd) c.data with
    | none =>
      rcases (selectOpcode_eq_none_iff ..).mp hs with hn | ⟨h67, hf⟩
      · exact absurd hlegal hn
      · rw [hla (hlane h67)] at hf
        cases hf
    | some i =>
      have hd : decode la c = .ok i := by simp [decode, hs, hrsv, harg]
      obtain ⟨hoi, -, -⟩ := legal_of_decode hd
      obtain ⟨q, hq, hqo, hqn⟩ := exists_row i
      have hrq : r = q := row_eq_of_opcField_eq r hr q hq (ho.symm.trans (hoi.trans hqo.symm))
      exact ⟨i, hd, by rw [hrq, hqn]⟩

/-- Settles O2: the words of each command, its row, and that two rows that match a word have its OPC. -/
theorem eachCommandHasItsWordsOnly : Obligations.EachCommandHasItsWordsOnly := by
  refine ⟨decode_eq_ok_iff_word, decode_mnemonic_iff, fun w r hr q hq hrw hqw => ?_⟩
  obtain ⟨hro, -⟩ := (matchesWord_iff hr w).mp hrw
  obtain ⟨hqo, -⟩ := (matchesWord_iff hq w).mp hqw
  exact row_eq_of_opcField_eq r hr q hq (hro.symm.trans hqo)

/-! ### The checks of an accepted command (R76) -/

/-- Settles O3: an accepted command raises R76's cause or executes, and what executes is the instruction of the word. -/
theorem acceptedCommandIsCheckedThenExecuted : Obligations.AcceptedCommandIsCheckedThenExecuted := by
  intro c s hr
  rcases runCommand_of_ready c hr with ⟨k, hk, hrun⟩ | ⟨i, hd, he, hrun⟩
  · refine ⟨fun k' hk' => ?_, fun hn => ?_⟩
    · cases hk.symm.trans hk'
      exact hrun
    · cases hk.symm.trans hn
  · have hnone : commandCause s.params.laneAccess s.phase c.cmd = none := by rw [commandCause_of_ok hd, if_pos he]
    refine ⟨fun k hk => (by cases hnone.symm.trans hk), fun _ => ?_⟩
    obtain ⟨-, -, hword, hdata⟩ := (decode_eq_ok_iff ..).mp hd
    refine ⟨i, _, hd, he, exec_executes hr he, hrun, hword, ?_, ?_⟩
    · rintro n d rfl
      cases hdata
      rfl
    · rintro k d rfl
      cases hdata
      rfl

/-! ### What DATA can change (R74) -/

theorem decode_error_iff_of_data (la : Bool) (w : CmdWord) (d d' : DataWord) (e : DecodeError) :
    decode la ⟨w, d⟩ = .error e ↔ decode la ⟨w, d'⟩ = .error e := by
  rw [decode_withData la w d d']
  cases decode la ⟨w, d⟩ <;> simp [Except.map]

theorem decode_eq_of_no_data (la : Bool) {w : CmdWord} (d d' : DataWord) (h2 : opcField w ≠ 2) (h6 : opcField w ≠ 6) :
    decode la ⟨w, d⟩ = decode la ⟨w, d'⟩ := by
  rw [decode_withData la w d d']
  cases hd : decode la ⟨w, d⟩ with
  | error e => rfl
  | ok i =>
    obtain ⟨ho, -, -⟩ := legal_of_decode hd
    exact congrArg _ (withData_of_opcode_ne d' (ho ▸ h2) (ho ▸ h6)).symm

theorem wordBytes_congr {v w : BitVec 64} {t k : Nat}
    (h : ∀ u, t ≤ u → u < t + k → wordByte v u = wordByte w u) : wordBytes v t k = wordBytes w t k := by
  induction k generalizing t with
  | zero => rfl
  | succ k ih =>
    rw [wordBytes, wordBytes, h t le_rfl (by omega), ih fun u h1 h2 => h u (by omega) (by omega)]

/-- ABSORB of `n` bytes reads the first `n` bytes of DATA alone. -/
theorem absorbEffect_congr {n : Nat} {d d' : DataWord} (h : ∀ t, t < n → wordByte d t = wordByte d' t) :
    absorbEffect n d = absorbEffect n d' := by
  funext s
  have hk : fitting s n ≤ n := Nat.min_le_left ..
  have hfit : wordBytes d 0 (fitting s n) = wordBytes d' 0 (fitting s n) :=
    wordBytes_congr fun u _ hu => h u (by omega)
  have hrest : wordBytes d (fitting s n) (n - fitting s n) = wordBytes d' (fitting s n) (n - fitting s n) :=
    wordBytes_congr fun u _ hu => h u (by omega)
  simp only [absorbEffect, hfit, hrest]

/-- Settles O4: DATA goes into the decoded instruction alone, ABSORB's effect reads its first bytes, and LOAD_LANE
writes the whole word. -/
theorem dataIsReadByAbsorbAndLoadLaneAlone : Obligations.DataIsReadByAbsorbAndLoadLaneAlone := by
  refine ⟨fun la w d d' => ⟨decode_error_iff_of_data la w d d', decode_eq_of_no_data la d d'⟩,
    fun n d d' s h => ?_, fun k d s hr hla hk => ?_⟩
  · simp only [exec, execAbsorb, absorbEffect_congr h]
  · exact ⟨_, exec_executes hr (executes_of_needsLaneAccess rfl (decide_eq_true hk) hla),
      lane_setLane_same s.lanes d (by omega)⟩

/-! ### ABSORB_BYTES (R81) -/

/-- Bytes `8k … min(8k+8, L) - 1` of a message, those of ABSORB_BYTES's command `k`. -/
def commandBytes (m : List Byte) (k : Nat) : List Byte := (m.drop (8 * k)).take 8

/-- The byte count and the data operand that carry some bytes: their number, and their little-endian number. -/
def chunkOf (bytes : List Byte) : Chunk := (BitVec.ofNat 5 bytes.length, BitVec.ofNat 64 (littleEndian bytes))

theorem absorbBytes_eq (m : List Byte) :
    absorbBytes m = splitCommands ((List.range (chunkCount m.length)).map fun k => chunkOf (commandBytes m k)) := by
  simp only [absorbBytes, splitCommands, List.map_map]; rfl

theorem commandBytes_length {m : List Byte} {k : Nat} (hk : k < chunkCount m.length) :
    1 ≤ (commandBytes m k).length ∧ (commandBytes m k).length ≤ 8 := by
  simp only [chunkCount] at hk
  simp only [commandBytes, List.length_take, List.length_drop]
  omega

theorem chunkOf_count {bytes : List Byte} (h : bytes.length ≤ 8) : (chunkOf bytes).1.toNat = bytes.length := by
  simp only [chunkOf, BitVec.toNat_ofNat]
  omega

theorem messageBytes_chunkOf {bytes : List Byte} (h : bytes.length ≤ 8) :
    messageBytes (chunkOf bytes).1.toNat (chunkOf bytes).2 = bytes := by
  rw [chunkOf_count h]
  exact messageBytes_littleEndian bytes h

/-- Settles O56: the split is `chunkOf` of each command's bytes, which in order are the message. -/
theorem absorbBytesCarriesTheMessage : Obligations.AbsorbBytesCarriesTheMessage := by
  intro m
  refine ⟨_, ?_, absorbBytes_eq m, ?_, by simp [absorbBytes, chunkCount]⟩
  · simp only [legalSplit, List.forall_mem_map, List.mem_range]
    intro k hk
    obtain ⟨h1, h8⟩ := commandBytes_length hk
    rw [byteCountWf, chunkOf_count h8]
    exact decide_eq_true ⟨h1, h8⟩
  · have hcarry (k : Nat) : messageBytes (chunkOf (commandBytes m k)).1.toNat (chunkOf (commandBytes m k)).2 =
        commandBytes m k := messageBytes_chunkOf (by simp [commandBytes])
    simp only [splitMessage, List.flatMap_map, hcarry]
    exact (flatMap_chunks m _).trans (List.take_of_length_le (by simp only [chunkCount]; omega))

/-! ### Written-out words (R75, R77, R82) -/

/-- Settles O5, by evaluating the decoder on each word. -/
theorem writtenWordsDecodeToTheirCommands : Obligations.WrittenWordsDecodeToTheirCommands := by
  unfold Obligations.WrittenWordsDecodeToTheirCommands
  decide

end Sys2Proof.Machine
end

section
/-! PROOFS. The permutation: its constant tables (R104, R107), the four steps of a round lane by lane (R102, R103, R105,
R106), the 24 rounds (R100, R101), the engine step and the permutation as engine steps (R109), and PERMUTE (R110). -/

namespace Sys2Proof.Machine

open Sys2Proof.Config Sys2Proof.Laws.EncodedFields

/-! ### The constant tables (R104, R107) -/

/-- Settles O14, by evaluating the table and the walk at each of their finitely many places. -/
theorem rotationOffsetsFollowTheWalk : Obligations.RotationOffsetsFollowTheWalk :=
  ⟨by decide, rfl, by decide, by decide⟩

/-- The table's constants are those the LFSR generates. -/
theorem rc_eq_generatedRc : ∀ ir, ir < 24 → rc ir = generatedRc ir := by decide +kernel

/-- Words ORed in one by one: a bit of the result is a bit of the start, or of a word that some entry of the list ORs
in. -/
theorem foldl_or_getLsbD (p : Nat → Bool) (g : Nat → Lane) (l : List Nat) (v : Lane) (b : Nat) :
    (l.foldl (fun v j => if p j = true then v ||| g j else v) v).getLsbD b =
      (v.getLsbD b || l.any fun j => p j && (g j).getLsbD b) := by
  induction l generalizing v with
  | nil => simp
  | cons j l ih =>
    rw [List.foldl_cons, ih, List.any_cons, ← Bool.or_assoc]
    cases p j <;> simp

theorem ofNat_one_shiftLeft_getLsbD {n b : Nat} (hb : b < 64) :
    (BitVec.ofNat 64 (1 <<< n)).getLsbD b = decide (n = b) := by
  rw [BitVec.getLsbD_ofNat, Nat.one_shiftLeft, Nat.testBit_two_pow, decide_eq_true hb, Bool.true_and]

/-- A bit of the generated constant is 1 where it is bit `2^j - 1` for a `j` below 7 with `rc(j + 7*ir) = 1`. -/
theorem generatedRc_getLsbD_iff (ir : Nat) {b : Nat} (hb : b < 64) :
    (generatedRc ir).getLsbD b = true ↔ ∃ j, j < 7 ∧ lfsrBit (j + 7 * ir) = true ∧ 2 ^ j - 1 = b := by
  rw [generatedRc, foldl_or_getLsbD]
  simp [ofNat_one_shiftLeft_getLsbD hb]

theorem two_pow_sub_one_inj {i j : Nat} (h : 2 ^ i - 1 = 2 ^ j - 1) : i = j := by
  have hi := Nat.two_pow_pos i
  have hj := Nat.two_pow_pos j
  exact Nat.pow_right_injective (Nat.le_refl 2) (show 2 ^ i = 2 ^ j by omega)

theorem generatedRc_getLsbD_two_pow (ir : Nat) {j : Nat} (hj : j < 7) :
    (generatedRc ir).getLsbD (2 ^ j - 1) = lfsrBit (j + 7 * ir) := by
  have hb : 2 ^ j - 1 < 64 := by
    have := Nat.pow_le_pow_right (show 0 < 2 by decide) (Nat.le_of_lt_succ hj)
    omega
  rw [Bool.eq_iff_iff, generatedRc_getLsbD_iff ir hb]
  constructor
  · rintro ⟨i, -, hbit, he⟩
    rwa [← two_pow_sub_one_inj he]
  · exact fun hbit => ⟨j, hj, hbit, rfl⟩

/-- The bit positions R107 names. -/
theorem two_pow_sub_one_mem : ∀ j, j < 7 → 2 ^ j - 1 ∈ [0, 1, 3, 7, 15, 31, 63] := by decide

/-- Settles O15: the table by its rows, and the bits of the generated constants, which are the table's. -/
theorem roundConstantsFollowTheLfsr : Obligations.RoundConstantsFollowTheLfsr := by
  refine ⟨⟨rfl, rfl⟩, ⟨rfl, rfl⟩, ⟨rfl, rfl⟩, ⟨rfl, rfl⟩, ⟨rfl, rfl⟩, ⟨rfl, rfl⟩, ⟨rfl, rfl⟩, ⟨rfl, rfl⟩, ⟨rfl, rfl⟩,
    ⟨rfl, rfl⟩, ⟨rfl, rfl⟩, ⟨rfl, rfl⟩, fun ir hir => ?_⟩
  rw [rc_eq_generatedRc ir hir]
  refine ⟨fun j hj => generatedRc_getLsbD_two_pow ir hj, fun b hb hmem => Bool.eq_false_iff.mpr fun hbit => ?_⟩
  obtain ⟨j, hj, -, rfl⟩ := (generatedRc_getLsbD_iff ir hb).mp hbit
  exact hmem (two_pow_sub_one_mem j hj)

/-! ### The steps of a round (R102, R103, R105, R106) -/

theorem lane_theta (a : Lanes) {i : Nat} (hi : i < 25) : lane (theta a) i = lane a i ^^^ thetaD a (i % 5) :=
  lane_ofFn _ hi

/-- Settles O16: the parities of the statement are `thetaC` and `thetaD` of the input. -/
theorem thetaXorsTheColumnParities : Obligations.ThetaXorsTheColumnParities := by
  intro a c d hc hd x y hx hy
  have hparity (z : Nat) : c (z % 5) = thetaC a (z % 5) := hc _ (Nat.mod_lt _ (by decide))
  have hcolumn : (x + 5 * y) % 5 = x := by omega
  rw [lane_theta a (by omega), hcolumn, hd x hx, hparity, hparity, thetaD, Nat.add_sub_assoc (by decide)]

/-- Where rho and pi put the lane of a place (R103). -/
def rhoPiTarget (p : Nat × Nat) : Nat := p.2 + 5 * ((2 * p.1 + 3 * p.2) % 5)

/-- A lane that no place of the list is moved to stays. -/
theorem lane_foldl_rhoPiPlace_of_ne {a b : Lanes} {l : List (Nat × Nat)} {i : Nat} (h : ∀ p ∈ l, rhoPiTarget p ≠ i) :
    lane (l.foldl (rhoPiPlace a) b) i = lane b i := by
  induction l generalizing b with
  | nil => rfl
  | cons p l ih =>
    obtain ⟨hp, hl⟩ := List.forall_mem_cons.mp h
    rw [List.foldl_cons, ih hl]
    exact lane_setLane_ne b _ hp

/-- A lane that one place of the list alone is moved to holds what that place moved there. -/
theorem lane_foldl_rhoPiPlace {a b : Lanes} {l : List (Nat × Nat)} {p : Nat × Nat} (hp : p ∈ l)
    (hl : ∀ q ∈ l, rhoPiTarget q = rhoPiTarget p → q = p) (h25 : rhoPiTarget p < 25) :
    lane (l.foldl (rhoPiPlace a) b) (rhoPiTarget p) = rotl (lane a (p.1 + 5 * p.2)) (rot p.1 p.2) := by
  induction l generalizing b with
  | nil => cases hp
  | cons q l ih =>
    obtain ⟨-, hrest⟩ := List.forall_mem_cons.mp hl
    rw [List.foldl_cons]
    by_cases hpl : p ∈ l
    · exact ih hpl hrest
    · obtain rfl : p = q := (List.mem_cons.mp hp).resolve_right hpl
      have hstays : ∀ r ∈ l, rhoPiTarget r ≠ rhoPiTarget p := fun r hr he => hpl (hrest r hr he ▸ hr)
      rw [lane_foldl_rhoPiPlace_of_ne hstays]
      exact lane_setLane_same b _ h25

theorem mem_places {x y : Nat} : (x, y) ∈ places ↔ x < 5 ∧ y < 5 := by
  simp [places, and_comm]

/-- Pi has an inverse: the place that goes to `(X, Y)` is `((X + 3Y) mod 5, X)`, and no other one does. -/
theorem pi_place_iff {x y X Y : Nat} (hx : x < 5) (hY : Y < 5) :
    (y, (2 * x + 3 * y) % 5) = (X, Y) ↔ x = (X + 3 * Y) % 5 ∧ y = X := by
  rw [Prod.mk.injEq]
  omega

/-- No two places go to the same lane. -/
theorem eq_of_rhoPiTarget_eq {p q : Nat × Nat} (hp : p ∈ places) (hq : q ∈ places)
    (h : rhoPiTarget q = rhoPiTarget p) : q = p := by
  obtain ⟨hpx, hpy⟩ := mem_places.mp hp
  obtain ⟨hqx, hqy⟩ := mem_places.mp hq
  simp only [rhoPiTarget] at h
  have hcolumn : q.2 = p.2 := by omega
  have hrow : (2 * q.1 + 3 * q.2) % 5 = (2 * p.1 + 3 * p.2) % 5 := by omega
  refine Prod.ext ?_ hcolumn
  rw [hcolumn] at hrow
  omega

theorem lane_rhoPi (a : Lanes) {p : Nat × Nat} (hp : p ∈ places) :
    lane (rhoPi a) (rhoPiTarget p) = rotl (lane a (p.1 + 5 * p.2)) (rot p.1 p.2) := by
  obtain ⟨-, hy⟩ := mem_places.mp hp
  refine lane_foldl_rhoPiPlace hp (fun q hq => eq_of_rhoPiTarget_eq hp hq) ?_
  rw [rhoPiTarget]
  omega

/-- Settles O17: no two places go to the same lane, so what a place moves there stays, and pi has an inverse. -/
theorem rhoPiRotatesAndMovesEveryLane : Obligations.RhoPiRotatesAndMovesEveryLane := by
  refine ⟨fun a x y hx hy => lane_rhoPi a (p := (x, y)) (mem_places.mpr ⟨hx, hy⟩), fun X hX Y hY => ?_⟩
  have hx : (X + 3 * Y) % 5 < 5 := Nat.mod_lt _ (by decide)
  exact ⟨_, hx, X, hX, (pi_place_iff hx hY).mpr ⟨rfl, rfl⟩, fun _ hx' _ _ => (pi_place_iff hx' hY).mp⟩

theorem lane_chi (b : Lanes) {i : Nat} (hi : i < 25) :
    lane (chi b) i =
      lane b i ^^^ (~~~(lane b ((i % 5 + 1) % 5 + 5 * (i / 5))) &&& lane b ((i % 5 + 2) % 5 + 5 * (i / 5))) :=
  lane_ofFn _ hi

/-- Settles O18: `lane_chi` at the lane of `(x, y)`. -/
theorem chiCombinesTheRow : Obligations.ChiCombinesTheRow := by
  intro b x y hx hy
  have hcolumn : (x + 5 * y) % 5 = x := by omega
  have hrow : (x + 5 * y) / 5 = y := by omega
  rw [lane_chi b (by omega), hcolumn, hrow]

/-- Settles O19: iota is one lane written. -/
theorem iotaXorsTheConstantIntoLaneZero : Obligations.IotaXorsTheConstantIntoLaneZero :=
  fun a _ => ⟨lane_setLane_same a _ (by decide), fun _ h1 _ => lane_setLane_ne a _ (Nat.ne_of_lt h1)⟩

/-! ### The 24 rounds (R100, R101) -/

theorem rounds_eq_foldl (a : Lanes) (first k : Nat) : rounds a first k = (List.range' first k).foldl rnd a := by
  induction k generalizing a first with
  | zero => rfl
  | succ k ih => rw [rounds, ih, List.range'_succ, List.foldl_cons]

/-- Settles O20: `rounds` is a fold over the round numbers, and a round is its four steps. -/
theorem keccakFIsTwentyFourRounds : Obligations.KeccakFIsTwentyFourRounds :=
  ⟨fun a => by rw [keccakF, rounds_eq_foldl, List.range_eq_range'], fun _ _ => rfl⟩

/-! ### The engine step (R109) -/

/-- The state bytes with the pending bytes XORed in from `SB(POS)`. -/
theorem sb_xorBytes_pendingBytes (s : State) (a : Lanes) {j : Nat} (hj : j < 200) :
    sb (xorBytes a s.pos.toNat s.pendingBytes) j =
      if s.pos.toNat ≤ j ∧ j < s.pos.toNat + s.pendCnt.toNat
      then sb a j ^^^ s.pend.getD (j - s.pos.toNat) 0 else sb a j := by
  rw [sb_xorBytes _ _ _ _ hj, pendingBytes_length]
  split
  · rw [pendingBytes_getD s _ (by omega)]
  · rfl

/-- Before round 23 the engine step writes the lanes and ROUND alone. -/
theorem engineStep_eq_of_round_ne {s : State} (h : s.round.toNat ≠ 23) :
    engineStep s = { s with lanes := rnd s.lanes s.round.toNat, round := s.round + 1 } := by
  have hround : BitVec.ofNat 5 (s.round.toNat + 1) = s.round + 1 := BitVec.eq_of_toNat_eq (by simp)
  rw [engineStep_round h, ← hround]
  -- With the round's lanes left opaque, `rfl` compares the record updates alone.
  generalize rnd s.lanes s.round.toNat = a
  rfl

/-- After round 23 it writes the lanes, BUSY, ROUND, POS and PEND_CNT alone. -/
theorem engineStep_eq_of_round_eq {s : State} (h : s.round.toNat = 23) :
    engineStep s = { s with
      lanes := (engineStep s).lanes, busy := false, round := 0,
      pos := s.pos + s.pendCnt.setWidth 8, pendCnt := 0 } := by
  have hpos : BitVec.ofNat 8 (s.pos.toNat + s.pendCnt.toNat) = s.pos + s.pendCnt.setWidth 8 :=
    BitVec.eq_of_toNat_eq (by simp)
  rw [← hpos, engineStep_last h]
  generalize rnd s.lanes 23 = a
  rfl

/-- The engine's step on the machine. -/
theorem step_of_stepIsEngine {s : State} (h : s.stepIsEngine) : step s = .next (engineStep s.takeTurn) := by
  simp [step, agentStep, show s.nextAgent = some .engine from h]

/-- Beside a host action that is enabled, the engine moves where the schedule gives it the turn (R20). -/
theorem stepIsEngine_of_turn {s : State} (hh : s.hostEnabled = true) (he : s.engineEnabled = true)
    (hturn : s.schedule.headD .engine = .engine) :
    s.stepIsEngine ∧ s.takeTurn = { s with schedule := s.schedule.tail } := by
  have hc : s.contended = true := by rw [State.contended, hh, he, Bool.and_self]
  exact ⟨by rw [State.stepIsEngine, State.nextAgent, if_pos hc, hturn], if_pos hc⟩

/-- Settles O21: `step_engine` and `stepIsEngine_of_turn` say when the machine's step is the engine's, and the two
cases of the engine step say what it writes. -/
theorem engineStepAppliesOneRound : Obligations.EngineStepAppliesOneRound := by
  refine ⟨fun s hb hr => ?_, fun s hn => ?_, fun s _ _ => ⟨engineStep_eq_of_round_ne, fun h23 => ?_⟩⟩
  · have he := (engineEnabled_iff s).mpr ⟨hb, hr⟩
    refine ⟨fun hh => step_engine hh he, fun hh hturn => ?_⟩
    obtain ⟨hn, htake⟩ := stepIsEngine_of_turn hh he hturn
    rw [step_of_stepIsEngine hn, htake]
  · obtain ⟨hb, hr⟩ := busy_of_stepIsEngine hn
    exact ⟨hb, hr, step_of_stepIsEngine hn⟩
  · refine ⟨engineStep_eq_of_round_eq h23, fun j hj => ?_⟩
    rw [(engineStep_last_lanes h23).1]
    exact sb_xorBytes_pendingBytes s _ hj

/-! ### A permutation (R109, R60) -/

/-- Twenty-four engine steps from round 0: KeccakF with the pending bytes XORed in, and POS past them. -/
theorem engineSteps_permutation {s : State} (h : s.round = 0) :
    (engineSteps 24 s).lanes = xorBytes (keccakF s.lanes) s.pos.toNat s.pendingBytes ∧
    (engineSteps 24 s).pos = BitVec.ofNat 8 (s.pos.toNat + s.pendCnt.toNat) := by
  have hend := engineSteps_end_lanes s (by simp [h])
  rwa [h] at hend

theorem pendingBytes_of_none {s : State} (h : s.pendCnt = 0) : s.pendingBytes = [] := by
  simp [State.pendingBytes, h]

/-- Settles O22: the steps before the last only apply rounds and count them, and the 24th ends the permutation. -/
theorem permutationIsTwentyFourEngineSteps : Obligations.PermutationIsTwentyFourEngineSteps := by
  intro s hs hb h0
  obtain ⟨hsponge, -⟩ := (inv_iff s).mp hs
  have hpos := hsponge.pos_lt
  have hend := engineSteps_end s hsponge.round_lt
  rw [h0] at hend
  obtain ⟨hbusy, hround, hcnt⟩ := hend
  obtain ⟨hlanes, hposEnd⟩ := engineSteps_permutation h0
  refine ⟨fun k hk => ?_, hbusy, hround, hcnt, ?_, fun hc => ?_, fun j hj => ?_⟩
  · rw [engineSteps_before_last k (by simp [h0]; omega)]
    simp [hb, h0]
    omega
  · rw [hposEnd, BitVec.toNat_ofNat]
    omega
  · rw [hlanes, pendingBytes_of_none hc]
    rfl
  · rw [hlanes]
    exact sb_xorBytes_pendingBytes s _ hj

/-! ### PERMUTE (R110), and the commands whose ARG has to be 0 (R73, R76) -/

/-- The commands whose ARG has to be 0: the decoder reads no operand, and the word's own ARG is 0 (R73). -/
theorem operands_of_opcode_mem {i : Instr} (hi : opcodeOf i ∈ [1, 3, 4, 5]) :
    (∀ la a d, selectOpcode la (opcodeOf i) a d = some i) ∧ (∀ a, argLegal (opcodeOf i) a = decide (a.toNat = 0)) ∧
      argOf i = 0 := by
  cases i with
  | absorb | loadLane | readLane => simp [opcodeOf] at hi
  | _ => exact ⟨fun _ _ _ => rfl, fun _ => rfl, rfl⟩

/-- A word of such an opcode is the command's own word, or decodes to the field error (R76). -/
theorem decode_of_opcode_mem {i : Instr} (hi : opcodeOf i ∈ [1, 3, 4, 5]) {w : CmdWord} (ho : opcField w = opcodeOf i)
    (la : Bool) (d : DataWord) :
    decode la ⟨w, d⟩ = if w = (encode i).cmd then .ok i else .error .illegalField := by
  obtain ⟨hsel, hlegal, harg⟩ := operands_of_opcode_mem hi
  have hword : rsvField w = 0 ∧ argLegal (opcodeOf i) (argField w) = true ↔ w = (encode i).cmd := by
    rw [encode_cmd, harg, hlegal, decide_eq_true_eq]
    constructor
    · rintro ⟨hrsv, h0⟩
      have ha : argField w = 0 := BitVec.eq_of_toNat_eq h0
      rw [← ho, ← ha, commandWord_of_fields w hrsv]
    · rintro rfl
      simp
  simp only [decode, ho, hsel, hword]

/-- Where it is accepted, the command's own word executes it and any other word raises cause 2 (R76, R181). -/
theorem runCommand_of_opcode_mem {s : State} {i : Instr} (hr : s.cmdReady = true) (hi : opcodeOf i ∈ [1, 3, 4, 5])
    {w : CmdWord} (ho : opcField w = opcodeOf i) (d : DataWord) :
    runCommand ⟨w, d⟩ s = if w = (encode i).cmd then exec i s else .next (s.raise .illegalField) := by
  have hdec := decode_of_opcode_mem hi ho s.params.laneAccess d
  by_cases hw : w = (encode i).cmd
  · rw [if_pos hw] at hdec ⊢
    exact runCommand_of_ok hdec
  · rw [if_neg hw] at hdec ⊢
    exact runCommand_of_error hr hdec

/-- Settles O23: PERMUTE's effect, and its one word. -/
theorem permuteStartsAPermutation : Obligations.PermuteStartsAPermutation := by
  intro s hr
  have hexec : exec .permute s = .next { s with busy := true, round := 0 } := exec_executes hr rfl
  refine ⟨hexec, fun w d ho => ?_⟩
  rw [← hexec, ← commandWord_permute]
  exact runCommand_of_opcode_mem (i := .permute) hr (by decide) ho d

end Sys2Proof.Machine
end

section
/-! PROOFS. The function keccak256: its padding (R131, R134), its output bytes one by one (R130, R133), and a block
absorbed by bytes or by words (R132). -/

namespace Sys2Proof.Machine

open Sys2Proof.Config

/-! ### Padding (R131, R134) -/

/-- The bytes that `pad` adds after a message with `r` bytes in its last block. -/
def padding (r : Nat) : List Byte :=
  if r = 135 then [0x81] else [0x01] ++ List.replicate (134 - r) 0x00 ++ [0x80]

theorem padding_length {r : Nat} (hr : r < 136) : (padding r).length = 136 - r := by
  unfold padding
  split
  · simp [*]
  · simp
    omega

/-- `LASTBYTE` ORed into the last byte of a byte string. -/
theorem modify_last (x : List Byte) (b : Byte) :
    (x ++ [b]).modify ((x ++ [b]).length - 1) (· ||| lastByte) = x ++ [b ||| lastByte] := by
  rw [List.length_append, List.length_singleton, Nat.add_sub_cancel, modify_append_last]

theorem padMessage_eq (m : List Byte) : padMessage m = m ++ padding (m.length % 136) := by
  have hr : m.length % 136 < 136 := Nat.mod_lt _ (by decide)
  unfold padMessage padding
  by_cases h135 : m.length % 136 = 135
  · have hzeros : rate - 1 - m.length % rate = 0 := by simp only [rate]; omega
    rw [if_pos h135, hzeros, List.replicate_zero, List.append_nil]
    exact modify_last m dsByte
  · have hzeros : rate - 1 - m.length % rate = 134 - m.length % 136 + 1 := by simp only [rate]; omega
    rw [if_neg h135, hzeros, List.replicate_succ', ← List.append_assoc]
    exact (modify_last _ 0).trans (by simp)

theorem padMessage_length (m : List Byte) : (padMessage m).length = 136 * (m.length / 136 + 1) := by
  rw [padMessage_eq, List.length_append, padding_length (Nat.mod_lt _ (by decide))]
  omega

/-- Settles O53: the message and `padding`, whose two forms are the cases of the last block. -/
theorem paddingEndsTheBlock : Obligations.PaddingEndsTheBlock := by
  refine fun m => ⟨padMessage_length m, ?_, fun h => ?_, fun h => ?_⟩
  · rw [permutationCount, padMessage_length]
    exact Nat.mul_div_cancel_left _ (by decide)
  · rw [padMessage_eq, padding, if_neg (by omega), ← List.append_assoc, ← List.append_assoc]
  · rw [padMessage_eq, padding, if_pos h]

/-! ### Output bytes (R130, R133) -/

/-- Byte `b` of the output squeezed from a state: the permutation runs once before each block of 136 bytes but the
first. -/
def outputByte (a : Lanes) (b : Nat) : Byte := sb (keccakF^[b / 136] a) (b % 136)

theorem outputByte_of_lt (a : Lanes) {b : Nat} (hb : b < 136) : outputByte a b = sb a b := by
  rw [outputByte, Nat.div_eq_of_lt hb, Nat.mod_eq_of_lt hb, Function.iterate_zero_apply]

theorem outputByte_next_block (a : Lanes) (b : Nat) : outputByte a (136 + b) = outputByte (keccakF a) b := by
  rw [outputByte, Nat.add_div_left _ (by decide), Nat.add_mod_left, Function.iterate_succ_apply,
    outputByte]

theorem map_outputByte_range_add (a : Lanes) (n : Nat) :
    (List.range (136 + n)).map (outputByte a) = rateBytes a ++ (List.range n).map (outputByte (keccakF a)) := by
  have hfirst : (List.range 136).map (outputByte a) = rateBytes a :=
    List.map_congr_left fun b hb => outputByte_of_lt a (List.mem_range.mp hb)
  have hrest : (List.range n).map (outputByte a ∘ (136 + ·)) = (List.range n).map (outputByte (keccakF a)) :=
    List.map_congr_left fun b _ => outputByte_next_block a b
  rw [List.range_add, List.map_append, List.map_map, hfirst, hrest]

theorem squeezeBlocks_eq (a : Lanes) (k : Nat) : squeezeBlocks a k = (List.range (136 * k)).map (outputByte a) := by
  induction k generalizing a with
  | zero => rfl
  | succ k ih => rw [squeezeBlocks, ih, Nat.mul_succ, Nat.add_comm, map_outputByte_range_add]

theorem squeezeOutput_eq (a : Lanes) (o : Nat) : squeezeOutput a o = (List.range o).map (outputByte a) := by
  have ho : o ≤ 136 * (o / rate + 1) := by simp only [rate]; omega
  rw [squeezeOutput, squeezeBlocks_eq, ← List.map_take, List.take_range, Nat.min_eq_left ho]

/-- Settles O54: the output is `outputByte` at 0, 1, … in order, and below byte 136 that is a state byte. -/
theorem digestIsTheFirstThirtyTwoBytes : Obligations.DigestIsTheFirstThirtyTwoBytes := by
  refine ⟨fun m => ?_, fun a o => ⟨?_, fun p hp => ?_, ?_⟩⟩
  · rw [keccak256, squeezeOutput_eq]
    refine ⟨by simp, List.map_congr_left fun b hb => outputByte_of_lt _ ?_⟩
    have hlt := List.mem_range.mp hb
    simp only [digestLength] at hlt
    omega
  · rw [squeezeOutput_eq, List.length_map, List.length_range]
  · rw [squeezeOutput_eq, squeezeOutput_eq, ← List.map_take, List.take_range, Nat.min_eq_left hp]
  · rw [squeezeOutput_eq, squeezeOutput_eq, map_outputByte_range_add, rateBytes]

/-! ### A block as words (R132) -/

theorem wordByte_xor (v w : BitVec 64) (t : Nat) : wordByte (v ^^^ w) t = wordByte v t ^^^ wordByte w t :=
  BitVec.extractLsb'_xor

/-- Word `i` of a block: its bytes `8i … 8i+7` as a little-endian number. -/
def blockWord (block : List Byte) (i : Nat) : Lane := BitVec.ofNat 64 (littleEndian ((block.drop (8 * i)).take 8))

theorem wordByte_blockWord (block : List Byte) (i : Nat) {t : Nat} (ht : t < 8) :
    wordByte (blockWord block i) t = block.getD (8 * i + t) 0 := by
  rw [blockWord, wordByte_littleEndian _ t ht]
  simp [List.getD_eq_getElem?_getD, List.getElem?_take_of_lt ht]

/-- Words XORed into the first `n` lanes in order. -/
theorem lane_foldl_xorWords (w : Nat → Lane) (a : Lanes) (n : Nat) {i : Nat} (hi : i < 25) :
    lane ((List.range n).foldl (fun b k => setLane b k (lane b k ^^^ w k)) a) i =
      if i < n then lane a i ^^^ w i else lane a i := by
  induction n with
  | zero => rfl
  | succ n ih =>
    rw [List.range_succ, List.foldl_append, List.foldl_cons, List.foldl_nil, lane_setLane _ _ _ _ hi]
    by_cases hn : n = i
    · subst hn
      rw [if_pos rfl, ih, if_neg (Nat.lt_irrefl n), if_pos (Nat.lt_succ_self n)]
    · have hlt : i < n + 1 ↔ i < n := by omega
      simp only [if_neg hn, ih, hlt]

theorem lane_xorBlockWords (a : Lanes) (block : List Byte) {i : Nat} (hi : i < 25) :
    lane (xorBlockWords a block) i = if i < 17 then lane a i ^^^ blockWord block i else lane a i :=
  lane_foldl_xorWords (blockWord block) a 17 hi

theorem sb_xorBlockWords (a : Lanes) (block : List Byte) {j : Nat} (hj : j < 200) :
    sb (xorBlockWords a block) j = if j < 136 then sb a j ^^^ block.getD j 0 else sb a j := by
  have hbyte : 8 * (j / 8) + j % 8 = j := by omega
  rw [sb, lane_xorBlockWords a block (by omega)]
  by_cases h : j < 136
  · rw [if_pos h, if_pos (by omega), wordByte_xor, wordByte_blockWord block _ (Nat.mod_lt _ (by decide)), hbyte, sb]
  · rw [if_neg h, if_neg (by omega), sb]

/-- Settles O55: the two states have the same bytes. -/
theorem blockBytesAreSeventeenLittleEndianWords : Obligations.BlockBytesAreSeventeenLittleEndianWords := by
  refine fun a block hlen => ⟨lanes_ext_of_bytes fun j hj => ?_, fun i hi _ => ?_⟩
  · rw [sb_xorBytes block a 0 j hj, sb_xorBlockWords a block hj, hlen]
    simp
  · simp only [rateLanes] at hi
    exact lane_xorBytes_of_le block a 0 i (by omega)

end Sys2Proof.Machine
end

section
/-! PROOFS. The sponge commands one by one: INIT (R135, R201), ABSORB (R136), FINAL (R137) and SQUEEZE (R138), each with
its effect in state bytes and its errors. -/

namespace Sys2Proof.Machine

open Sys2Proof.Config

/-! ### INIT (R135, R201) -/

/-- Settles O24: INIT's effect, and its one word. -/
theorem initClearsTheEngine : Obligations.InitClearsTheEngine := by
  refine fun s hr => ⟨⟨initialise s, exec_executes hr rfl, rfl⟩, fun w d ho => ?_⟩
  rw [← commandWord_init]
  exact runCommand_of_opcode_mem (i := .init) hr (by decide) ho d

/-- Settles O25: INIT writes all registers but BUSY and ROUND, which are 0 in an idle engine. -/
theorem initGivesTheResetRegisters : Obligations.InitGivesTheResetRegisters := by
  intro s hs hr
  obtain ⟨hsponge, -⟩ := (inv_iff s).mp hs
  obtain ⟨hb, -⟩ := (cmdReady_iff s).mp hr
  obtain ⟨hround, -⟩ := hsponge.idle hb
  refine ⟨initialise s, exec_executes hr rfl, ⟨rfl, rfl, rfl, rfl, hb, hround, rfl, rfl, rfl, rfl⟩, ?_⟩
  exact State.ext rfl rfl rfl rfl rfl hb hround rfl rfl rfl rfl rfl rfl rfl rfl rfl rfl

/-! ### ABSORB (R136) -/

/-- The state bytes with the first `k` bytes of a data operand XORed in from `SB(i)`. -/
theorem sb_xorBytes_wordBytes (a : Lanes) (i k : Nat) (d : DataWord) {j : Nat} (hj : j < 200) :
    sb (xorBytes a i (wordBytes d 0 k)) j =
      if i ≤ j ∧ j < i + k then sb a j ^^^ wordByte d (j - i) else sb a j := by
  rw [sb_xorBytes _ a i j hj, wordBytes_length]
  split
  · rw [wordBytes_getD d 0 k _ (by omega), Nat.zero_add]
  · rfl

theorem sb_absorbEffect {s : State} (n : Nat) (d : DataWord) (hpos : s.pos.toNat < 136) {j : Nat} (hj : j < 200) :
    sb (absorbEffect n d s).lanes j =
      if s.pos.toNat ≤ j ∧ j < s.pos.toNat + n ∧ j < 136
      then sb s.lanes j ^^^ wordByte d (j - s.pos.toNat) else sb s.lanes j := by
  rcases absorb_cases n d s hpos with ⟨hlt, he⟩ | ⟨hge, he⟩
  · have hrange : j < s.pos.toNat + n ∧ j < 136 ↔ j < s.pos.toNat + n := by omega
    simp only [he, State.setPos_lanes, State.setLanes_lanes, sb_xorBytes_wordBytes _ _ _ _ hj, hrange]
  · have hend : s.pos.toNat + (136 - s.pos.toNat) = 136 := by omega
    have hrange : j < s.pos.toNat + n ∧ j < 136 ↔ j < 136 := by omega
    simp only [he, closeBlock, State.startPermutation_lanes, State.setPendCnt_lanes, State.setPend_lanes,
      State.setPos_lanes, State.setLanes_lanes, sb_xorBytes_wordBytes _ _ _ _ hj, hend, hrange]

/-- Settles O26: the bytes by `sb_absorbEffect`, the other registers by the two cases of ABSORB. -/
theorem absorbXorsItsBytesAtPos : Obligations.AbsorbXorsItsBytesAtPos := by
  intro s n d hpos hr
  refine ⟨fun h1 h8 hphase => ?_, fun hn => ?_, fun h1 h8 hphase => ?_⟩
  · have hexec : exec (.absorb n d) s = .next (absorbEffect n.toNat d s) :=
      exec_executes hr (by simp [State.executes, byteCountWf, h1, h8, hphase])
    refine ⟨_, hexec, fun j hj => sb_absorbEffect n.toNat d hpos hj, fun hlt => ?_, fun hge => ⟨?_, fun k hk => ?_⟩⟩
    · rw [absorbEffect_within n.toNat d s hlt]
      rfl
    · simp [State.ext_iff, absorbEffect_full n.toNat d s hge hpos.le, closeBlock]
    · rw [absorbEffect_full n.toNat d s hge hpos.le, closeBlock, State.startPermutation_pend, State.setPendCnt_pend,
        State.setPend_pend, storePend_getD _ _ _ _ hk, wordBytes_length, Nat.zero_add, Nat.sub_zero]
      by_cases hrest : k < s.pos.toNat + n.toNat - 136
      · rw [if_pos ⟨Nat.zero_le k, hrest⟩, if_pos hrest, wordBytes_getD d _ _ k hrest]
        rfl
      · rw [if_neg (fun h => hrest h.2), if_neg hrest]
        rfl
  · have hwf : byteCountWf n = false := decide_eq_false hn
    simpa [causeOf, hwf] using exec_raises (i := .absorb n d) hr (by simp [State.executes, hwf])
  · have hwf : byteCountWf n = true := decide_eq_true ⟨h1, h8⟩
    simpa [causeOf, hwf] using exec_raises (i := .absorb n d) hr (by simp [State.executes, hphase])

/-! ### FINAL (R137) -/

theorem sb_finalEffect {s : State} {j : Nat} (hj : j < 200) :
    sb (finalEffect s).lanes j =
      if j = 135 then (if s.pos.toNat = 135 then sb s.lanes j ^^^ 0x81 else sb s.lanes j ^^^ 0x80)
      else if j = s.pos.toNat then sb s.lanes j ^^^ 0x01 else sb s.lanes j := by
  have hlanes : (finalEffect s).lanes = xorSb (xorSb s.lanes s.pos.toNat 0x01) 135 0x80 := rfl
  rw [hlanes, sb_xorSb _ _ _ _ hj, sb_xorSb _ _ _ _ hj]
  by_cases h135 : j = 135
  · subst h135
    rw [if_pos rfl, if_pos rfl]
    split
    · exact BitVec.xor_assoc _ _ _
    · rfl
  · rw [if_neg (Ne.symm h135), if_neg h135]
    exact if_congr eq_comm rfl rfl

/-- Settles O27: FINAL's effect in state bytes, and its one word. -/
theorem finalPadsTheLastBlock : Obligations.FinalPadsTheLastBlock := by
  refine fun s _ hr => ⟨fun hphase => ?_, fun hphase => ?_, fun w d ho => ?_⟩
  · exact ⟨_, exec_executes hr (by simp [State.executes, hphase]), rfl, fun j hj => sb_finalEffect hj⟩
  · exact exec_raises hr (by simp [State.executes, hphase])
  · rw [← commandWord_final]
    exact runCommand_of_opcode_mem (i := .final) hr (by decide) ho d

/-! ### SQUEEZE (R138) -/

/-- Settles O28: the two cases of SQUEEZE, and its one word. -/
theorem squeezeReturnsTheNextRateLane : Obligations.SqueezeReturnsTheNextRateLane := by
  intro s _ hr
  have hexec (hphase : s.phase = .squeeze) : exec .squeeze s = .next (squeezeEffect s) :=
    exec_executes hr (by simp [State.executes, hphase])
  refine ⟨fun hphase h16 => ?_, fun hphase h16 => ?_, fun hphase => ?_, fun w d ho => ?_⟩
  · have hsq : BitVec.ofNat 5 (s.sq.toNat + 1) = s.sq + 1 := BitVec.eq_of_toNat_eq (by simp)
    rw [hexec hphase, squeezeEffect_within s (Nat.ne_of_lt h16), ← hsq]
    rfl
  · rw [hexec hphase, squeezeEffect_last s h16]
    rfl
  · exact exec_raises hr (by simp [State.executes, hphase])
  · rw [← commandWord_squeeze]
    exact runCommand_of_opcode_mem (i := .squeeze) hr (by decide) ho d

end Sys2Proof.Machine
end

section
/-! PROOFS. The command sequence of a digest computes the sponge (R139). Each state is looked at through the idle state
its running permutation leads to (`State.settled`), so that the interleaving of reads and engine steps does not matter;
one lemma for each command says what it adds to the message absorbed or to the output squeezed so far. -/

namespace Sys2Proof.Machine

open Sys2Proof.Config

/-! ### The idle state that a permutation leads to -/

/-- The state with the remaining rounds of the running permutation applied, where one runs (R109). -/
def State.settled (s : State) : State := if s.busy = true then engineSteps (24 - s.round.toNat) s else s

theorem settled_of_idle {s : State} (h : s.busy = false) : s.settled = s := by
  simp [State.settled, h]

theorem settled_of_busy {s : State} (h : s.busy = true) : s.settled = engineSteps (24 - s.round.toNat) s := if_pos h

/-- What no engine step writes. -/
theorem settled_frame (s : State) :
    s.settled.params = s.params ∧ s.settled.phase = s.phase ∧ s.settled.sq = s.sq ∧ s.settled.err = s.err ∧
    s.settled.result = s.result ∧ s.settled.rst = s.rst ∧ s.settled.program = s.program ∧ s.settled.pc = s.pc ∧
    s.settled.observed = s.observed := by
  unfold State.settled
  split
  · simp [engineSteps_frame]
  · simp

/-- A permutation that comes to its end is at a round below 24. -/
theorem round_lt_of_settled {s : State} (h : s.settled.busy = false) (hb : s.busy = true) : s.round.toNat < 24 := by
  by_contra hge
  have hnone : 24 - s.round.toNat = 0 := by omega
  rw [settled_of_busy hb, hnone] at h
  exact Bool.false_ne_true (h.symm.trans hb)

theorem settled_engineStep {s : State} (hb : s.busy = true) (hround : s.round.toNat < 24) :
    (engineStep s).settled = s.settled := by
  obtain ⟨hnext, hbusy⟩ := engineStep_round_busy hround hb
  have hsplit : s.settled = engineSteps (23 - s.round.toNat) (engineStep s) := by
    rw [settled_of_busy hb, show 24 - s.round.toNat = 23 - s.round.toNat + 1 by omega, engineSteps]
  by_cases h23 : s.round.toNat = 23
  · rw [settled_of_idle (engineStep_ends h23).1, hsplit, h23]
    rfl
  · rw [settled_of_busy (hbusy.mpr h23), hsplit, hnext, if_neg h23, Nat.sub_add_eq, Nat.sub_right_comm]

/-- A permutation that has just started ends with KeccakF and the pending bytes, POS past them (R109). -/
theorem settled_of_started {s : State} (hb : s.busy = true) (h0 : s.round = 0) :
    s.settled.busy = false ∧ s.settled.pendCnt = 0 ∧
    s.settled.pos = BitVec.ofNat 8 (s.pos.toNat + s.pendCnt.toNat) ∧
    s.settled.lanes = xorBytes (keccakF s.lanes) s.pos.toNat s.pendingBytes := by
  have hsettled : s.settled = engineSteps 24 s := by rw [settled_of_busy hb, h0]; rfl
  obtain ⟨hbusy, -, hpend⟩ := engineSteps_end s (by simp [h0])
  obtain ⟨hlanes, hpos⟩ := engineSteps_permutation h0
  rw [← settled_of_busy hb] at hbusy hpend
  rw [← hsettled] at hlanes hpos
  exact ⟨hbusy, hpend, hpos, hlanes⟩

/-- The engine reads and writes the engine's registers alone. -/
theorem registers_engineStep (s : State) : (engineStep s).registers = engineStep s.registers := by
  by_cases h : s.round.toNat = 23
  · rw [engineStep_last h, engineStep_last (s := s.registers) h]; rfl
  · rw [engineStep_round h, engineStep_round (s := s.registers) h]; rfl

theorem registers_engineSteps (k : Nat) (s : State) : (engineSteps k s).registers = engineSteps k s.registers := by
  induction k generalizing s with
  | zero => rfl
  | succ k ih => rw [engineSteps, ih, registers_engineStep, engineSteps]

theorem registers_settled (s : State) : s.settled.registers = s.registers.settled := by
  have hbusy : s.registers.busy = s.busy := rfl
  cases hb : s.busy with
  | false => rw [settled_of_idle hb, settled_of_idle (hbusy.trans hb)]
  | true => rw [settled_of_busy hb, settled_of_busy (hbusy.trans hb), registers_engineSteps]; rfl

theorem registers_settled_congr {s t : State} (h : t.registers = s.registers) :
    t.settled.registers = s.settled.registers := by
  rw [registers_settled, h, registers_settled]

/-- RESULT is not the engine's to write, so it is what the idle state shows. -/
theorem result_eq_of_settled_registers {s t : State} (h : t.settled.registers = s.settled.registers) :
    t.result = s.result := by
  obtain ⟨-, -, -, -, hs, -⟩ := settled_frame s
  obtain ⟨-, -, -, -, ht, -⟩ := settled_frame t
  rw [← hs, ← ht]
  exact eq_of_registers_eq h State.result

/-! ### Runs of the host's program -/

/-- `t` comes after `s` in a run in which the host does its next `n` actions, and its reads are of RESULT and return
`results`. -/
structure RunsTo (s : State) (n : Nat) (results : List (BitVec 64)) (t : State) : Prop where
  run : ∃ k, runSteps k s = .next t
  rst : t.rst = s.rst
  program : t.program = s.program
  pc : t.pc = s.pc + n
  observed : t.observed = s.observed ++ results.map Observation.result

theorem RunsTo.trans {s t u : State} {n n' : Nat} {l l' : List (BitVec 64)} (h : RunsTo s n l t)
    (h' : RunsTo t n' l' u) : RunsTo s (n + n') (l ++ l') u := by
  obtain ⟨k, hk⟩ := h.run
  obtain ⟨k', hk'⟩ := h'.run
  exact ⟨⟨k + k', (runSteps_add k k' s t hk).trans hk'⟩, h'.rst.trans h.rst, h'.program.trans h.program,
    by rw [h'.pc, h.pc, Nat.add_assoc], by rw [h'.observed, h.observed, List.map_append, List.append_assoc]⟩

/-- What is left of the host's list after its next actions. -/
theorem RunsTo.rest {s t : State} {n : Nat} {l : List (BitVec 64)} (h : RunsTo s n l t) {x y : List HostAction}
    (hprog : s.program.drop s.pc = x ++ y) (hx : x.length = n) : t.program.drop t.pc = y := by
  rw [h.program, h.pc, ← List.drop_drop, hprog, ← hx, List.drop_left]

theorem run_of_step {s t : State} (h : step s = .next t) : ∃ k, runSteps k s = .next t :=
  ⟨1, runSteps_succ 0 s t h⟩

/-- A command is held until the permutation has ended (R204). -/
theorem runsTo_settled {s : State} {c : Command} (ha : s.currentAction = some (.command c)) (hrst : s.rst = false)
    (hidle : s.settled.busy = false) : RunsTo s 0 [] s.settled := by
  obtain ⟨-, -, -, -, -, hrst', hprogram, hpc, hobserved⟩ := settled_frame s
  refine ⟨?_, hrst', hprogram, hpc, by simp [hobserved]⟩
  cases hb : s.busy with
  | false => exact ⟨0, by rw [settled_of_idle hb]; rfl⟩
  | true =>
    have hround := round_lt_of_settled hidle hb
    have hheld (u : State) (hu : u.busy = true) (hua : u.currentAction = s.currentAction) : u.hostEnabled = false := by
      simp [State.hostEnabled, hua, ha, State.cmdReady, hu]
    rw [settled_of_busy hb]
    exact ⟨_, runSteps_engine _ s hb hrst (by omega) hheld⟩

/-- The host's command has its effect on the idle state, whatever the engine was doing when it was offered. -/
theorem runsTo_command {s : State} {i : Instr} (ha : s.currentAction = some (assemble i)) (hrst : s.rst = false)
    (hidle : s.settled.busy = false) (hw : i.wf = true) (hla : i.needsLaneAccess = false)
    (he : s.settled.executes i = true) :
    ∃ t, RunsTo s 1 [] t ∧ t.settled.registers = (effectOf i s.settled).settled.registers := by
  have hwait := runsTo_settled ha hrst hidle
  have hready : s.settled.cmdReady = true := (cmdReady_iff _).mpr ⟨hidle, hwait.rst.trans hrst⟩
  have ha' : s.settled.currentAction = some (.command (encode i)) := by
    rw [State.currentAction, hwait.program, hwait.pc]
    exact ha
  have hdecode : decode s.settled.params.laneAccess (encode i) = .ok i :=
    decodeOfEncodeIsTheInstr _ i hw (by simp [hla])
  have hstep := step_of_executes ⟨encode i, ha', hready, hdecode, he⟩
  have hrun : RunsTo s.settled 1 [] (effectOf i s.settled).advancePc :=
    ⟨run_of_step hstep, by simp, by simp, by simp, by simp⟩
  exact ⟨_, hwait.trans hrun, registers_settled_congr rfl⟩

/-- Where the host's action is enabled, one of the two agents moves. -/
theorem nextAgent_of_hostEnabled {s : State} (h : s.hostEnabled = true) :
    s.nextAgent = some .host ∨ s.stepIsEngine := by
  unfold State.stepIsEngine State.nextAgent
  rw [if_pos h]
  split
  · cases s.schedule.headD .engine with
    | host => exact .inl rfl
    | engine => exact .inr rfl
  · exact .inl rfl

/-- The host's read of RESULT, where the host moves. -/
theorem runsTo_rdResult_of_host {s : State} (hn : s.nextAgent = some .host) (ha : s.currentAction = some .rdResult) :
    ∃ t, RunsTo s 1 [s.result] t ∧ t.settled.registers = s.settled.registers :=
  ⟨_, ⟨run_of_step (step_rdResult hn ha), by simp, by simp, by simp, by simp⟩,
    registers_settled_congr (registers_takeTurn s)⟩

/-- The engine's step beside the host's action: nothing the host sees moves, and the permutation leads to the same
registers. -/
theorem runsTo_of_stepIsEngine {s : State} (hn : s.stepIsEngine) (hidle : s.settled.busy = false) :
    ∃ t, RunsTo s 0 [] t ∧ t.settled.registers = s.settled.registers ∧ t.result = s.result ∧
      (t.busy = true → t.round.toNat = s.round.toNat + 1) := by
  obtain ⟨hb, -⟩ := busy_of_stepIsEngine hn
  have hb' : s.takeTurn.busy = true := by simpa using hb
  have hround : s.takeTurn.round.toNat < 24 := by simpa using round_lt_of_settled hidle hb
  obtain ⟨hnext, hbusy⟩ := engineStep_round_busy hround hb'
  have hrun : RunsTo s 0 [] (engineStep s.takeTurn) := by
    refine ⟨run_of_step (step_of_stepIsEngine hn), ?_, ?_, ?_, ?_⟩ <;> simp [engineStep_frame]
  refine ⟨_, hrun, ?_, by simp [engineStep_frame], fun ht => ?_⟩
  · rw [settled_engineStep hb' hround, registers_settled_congr (registers_takeTurn s)]
  · rw [hnext, if_neg (hbusy.mp ht)]
    simp

/-- A read of RESULT beside a permutation with at most `n` rounds left: whichever agent moves first, the value is the
same and the permutation leads to the same registers. -/
theorem runsTo_rdResult_within (n : Nat) {s : State} (ha : s.currentAction = some .rdResult)
    (hidle : s.settled.busy = false) (hleft : s.busy = true → 24 ≤ s.round.toNat + n) :
    ∃ t, RunsTo s 1 [s.result] t ∧ t.settled.registers = s.settled.registers := by
  have hhost : s.hostEnabled = true := by simp [State.hostEnabled, ha]
  induction n generalizing s with
  | zero =>
    have hdone : s.engineEnabled = false := Bool.eq_false_iff.mpr fun he => by
      obtain ⟨hb, -⟩ := (engineEnabled_iff s).mp he
      have hlt := round_lt_of_settled hidle hb
      have hge := hleft hb
      omega
    exact runsTo_rdResult_of_host (nextAgent_host_of_idle_engine hhost hdone).1 ha
  | succ n ih =>
    rcases nextAgent_of_hostEnabled hhost with hn | hn
    · exact runsTo_rdResult_of_host hn ha
    · have hge := hleft (busy_of_stepIsEngine hn).1
      obtain ⟨u, hrun, hregs, hresult, hnext⟩ := runsTo_of_stepIsEngine hn hidle
      have hau : u.currentAction = some .rdResult := by
        rw [State.currentAction, hrun.program, hrun.pc]
        exact ha
      have hleftu (hb : u.busy = true) : 24 ≤ u.round.toNat + n := by
        have := hnext hb
        omega
      obtain ⟨t, hrun', hregs'⟩ :=
        ih hau ((eq_of_registers_eq hregs State.busy).trans hidle) hleftu (by simp [State.hostEnabled, hau])
      rw [hresult] at hrun'
      exact ⟨t, hrun.trans hrun', hregs'.trans hregs⟩

theorem runsTo_rdResult {s : State} (ha : s.currentAction = some .rdResult) (hidle : s.settled.busy = false) :
    ∃ t, RunsTo s 1 [s.result] t ∧ t.settled.registers = s.settled.registers :=
  runsTo_rdResult_within 24 ha hidle fun _ => Nat.le_add_left 24 _

/-! ### The lanes while a message is absorbed (R130, R136, R137) -/

/-- The lanes with the bytes of `m` absorbed: its whole blocks, each with its permutation, then the bytes of the block
begun. -/
def absorbedLanes (m : List Byte) : Lanes :=
  xorBytes (absorbBlocks m (m.length / 136)) 0 (m.drop (136 * (m.length / 136)))

/-- Bytes that leave the block unfinished. -/
theorem absorbedLanes_append_within (m : List Byte) {bs : List Byte} (h : m.length % 136 + bs.length < 136) :
    absorbedLanes (m ++ bs) = xorBytes (absorbedLanes m) (m.length % 136) bs := by
  have hblocks : (m ++ bs).length / 136 = m.length / 136 := by rw [List.length_append]; omega
  have hbegun : m.length - 136 * (m.length / 136) = m.length % 136 := by omega
  rw [absorbedLanes, hblocks, absorbBlocks_append m bs _ (by omega), List.drop_append_of_le_length (by omega),
    xorBytes_append, List.length_drop, hbegun, Nat.zero_add, absorbedLanes]

/-- Bytes that end the block: the permutation runs. -/
theorem absorbedLanes_append_full (m : List Byte) {bs : List Byte} (h : m.length % 136 + bs.length = 136) :
    absorbedLanes (m ++ bs) = keccakF (xorBytes (absorbedLanes m) (m.length % 136) bs) := by
  have hlen : (m ++ bs).length = 136 * (m.length / 136 + 1) := by rw [List.length_append]; omega
  have hblocks : (m ++ bs).length / 136 = m.length / 136 + 1 := by omega
  have hbegun : m.length - 136 * (m.length / 136) = m.length % 136 := by omega
  have hlast : blockAt (m ++ bs) (m.length / 136) = m.drop (136 * (m.length / 136)) ++ bs := by
    simp only [blockAt, rate]
    rw [List.drop_append_of_le_length (by omega), List.take_of_length_le (by simp; omega)]
  rw [absorbedLanes, hblocks, List.drop_of_length_le (by omega), xorBytes, absorbBlocks_succ,
    absorbBlocks_append m bs _ (by omega), hlast, absorbBlock, xorBytes_append, List.length_drop, hbegun, Nat.zero_add,
    absorbedLanes]

/-- The padding as FINAL writes it: its two ends, where the zeros between change nothing (R131, R137). -/
theorem xorBytes_padding (a : Lanes) {r : Nat} (hr : r < 136) :
    xorBytes a r (padding r) = xorSb (xorSb a r dsByte) (rate - 1) lastByte := by
  unfold padding
  split
  · subst r
    exact (xorSb_xorSb_same a 135 dsByte lastByte).symm
  · have hend : r + (1 + (134 - r)) = rate - 1 := by simp only [rate]; omega
    rw [xorBytes_append, xorBytes_append, xorBytes_zeros, List.length_append, List.length_replicate,
      List.length_singleton, hend]
    rfl

/-- The state after the last block, from the lanes and POS that FINAL finds. -/
theorem absorbedState_eq (m : List Byte) :
    absorbedState m = keccakF (xorSb (xorSb (absorbedLanes m) (m.length % 136) dsByte) (rate - 1) lastByte) := by
  have hr : m.length % 136 < 136 := Nat.mod_lt _ (by decide)
  have hwhole : absorbedState m = absorbedLanes (padMessage m) := by
    have hall : (padMessage m).drop (136 * ((padMessage m).length / 136)) = [] :=
      List.drop_of_length_le (by rw [padMessage_length]; omega)
    rw [absorbedLanes, hall]
    rfl
  rw [hwhole, padMessage_eq, absorbedLanes_append_full m (by rw [padding_length hr]; omega), xorBytes_padding _ hr]

/-! ### ABSORB and FINAL on an idle engine -/

/-- The idle engine has absorbed the bytes of `m` since INIT, with no error. -/
structure Absorbed (m : List Byte) (s : State) : Prop where
  idle : s.busy = false
  noError : s.err = false
  phase : s.phase = .absorb
  pos : s.pos.toNat = m.length % 136
  noPending : s.pendCnt = 0
  lanes : s.lanes = absorbedLanes m

theorem absorbed_of_registers_eq {m : List Byte} {s t : State} (h : Absorbed m s) (hregs : t.registers = s.registers) :
    Absorbed m t where
  idle := (eq_of_registers_eq hregs State.busy).trans h.idle
  noError := (eq_of_registers_eq hregs State.err).trans h.noError
  phase := (eq_of_registers_eq hregs State.phase).trans h.phase
  pos := (congrArg BitVec.toNat (eq_of_registers_eq hregs State.pos)).trans h.pos
  noPending := (eq_of_registers_eq hregs State.pendCnt).trans h.noPending
  lanes := (eq_of_registers_eq hregs State.lanes).trans h.lanes

theorem absorbed_initialise {s : State} (hb : s.busy = false) : Absorbed [] (initialise s).settled := by
  rw [settled_of_idle (s := initialise s) hb]
  exact ⟨hb, rfl, rfl, rfl, rfl, rfl⟩

/-- Bytes that leave the block unfinished are XORed in at POS. -/
theorem absorbed_within {m bs : List Byte} {s : State} (h : Absorbed m s) (hbs : m.length % 136 + bs.length < 136) :
    Absorbed (m ++ bs)
      ((s.setLanes (xorBytes s.lanes s.pos.toNat bs)).setPos (s.pos.toNat + bs.length)) := by
  refine ⟨h.idle, h.noError, h.phase, ?_, h.noPending, ?_⟩
  · rw [State.setPos_pos, h.pos, BitVec.toNat_ofNat, List.length_append]
    omega
  · rw [absorbedLanes_append_within m hbs, ← h.lanes, ← h.pos]
    rfl

/-- Bytes that end the block are XORed in at POS, and the ones after them by the end of the permutation (R109). -/
theorem absorbed_closeBlock {m first rest : List Byte} {s : State} (h : Absorbed m s)
    (hfirst : m.length % 136 + first.length = 136) (hrest : rest.length ≤ 7) :
    Absorbed (m ++ first ++ rest)
      (closeBlock rest (s.setLanes (xorBytes s.lanes s.pos.toNat first))).settled := by
  set t := closeBlock rest (s.setLanes (xorBytes s.lanes s.pos.toNat first)) with ht
  obtain ⟨hbusy, hpend, hpos, hlanes⟩ := settled_of_started (s := t) rfl rfl
  obtain ⟨-, hphase, -, herr, -⟩ := settled_frame t
  have hblock : (m ++ first).length % 136 = 0 := by rw [List.length_append]; omega
  refine ⟨hbusy, herr.trans h.noError, hphase.trans h.phase, ?_, hpend, ?_⟩
  · rw [hpos, List.length_append (bs := rest)]
    simp [ht, closeBlock]
    omega
  · rw [hlanes, pendingBytes_closeBlock rest _ hrest, absorbedLanes_append_within _ (by omega), hblock,
      absorbedLanes_append_full m hfirst, ← h.lanes, ← h.pos]
    rfl

/-- ABSORB adds its bytes to those absorbed, by the permutation it starts where they end the block (R136). -/
theorem absorbed_absorbEffect {m : List Byte} {s : State} (h : Absorbed m s) {n : Nat} (hn : n ≤ 8) (d : DataWord) :
    Absorbed (m ++ messageBytes n d) (absorbEffect n d s).settled := by
  have hposn := h.pos
  have hpos : s.pos.toNat < 136 := by omega
  rcases absorb_cases n d s hpos with ⟨hlt, he⟩ | ⟨hge, he⟩ <;> rw [he]
  · have hlen : (wordBytes d 0 n).length = n := wordBytes_length d 0 n
    have hnext := absorbed_within h (bs := wordBytes d 0 n) (by omega)
    rw [hlen] at hnext
    rw [settled_of_idle hnext.idle]
    exact hnext
  · have hcut : messageBytes n d =
        wordBytes d 0 (136 - s.pos.toNat) ++ wordBytes d (136 - s.pos.toNat) (s.pos.toNat + n - 136) := by
      have hsum : 136 - s.pos.toNat + (s.pos.toNat + n - 136) = n := by omega
      have happend := wordBytes_append d 0 (136 - s.pos.toNat) (s.pos.toNat + n - 136)
      rwa [hsum, Nat.zero_add] at happend
    rw [hcut, ← List.append_assoc]
    exact absorbed_closeBlock h (by rw [wordBytes_length]; omega) (by rw [wordBytes_length]; omega)

/-- The run of the ABSORB commands of a split (R139). -/
theorem runsTo_absorbs {chunks : List Chunk} (hsplit : legalSplit chunks) {s : State} {m : List Byte}
    {after : List HostAction} (hprog : s.program.drop s.pc = (splitCommands chunks).map assemble ++ after)
    (hrst : s.rst = false) (h : Absorbed m s.settled) :
    ∃ t, RunsTo s chunks.length [] t ∧ Absorbed (m ++ splitMessage chunks) t.settled := by
  induction chunks generalizing s m with
  | nil =>
    refine ⟨s, ⟨⟨0, rfl⟩, rfl, rfl, rfl, by simp⟩, ?_⟩
    rw [splitMessage, List.flatMap_nil, List.append_nil]
    exact h
  | cons c chunks ih =>
    obtain ⟨hwf, hsplit'⟩ := List.forall_mem_cons.mp hsplit
    obtain ⟨-, h8⟩ : 1 ≤ c.1.toNat ∧ c.1.toNat ≤ 8 := of_decide_eq_true hwf
    obtain ⟨ha, -⟩ := currentAction_of_drop hprog
    obtain ⟨t, hrun, hregs⟩ := runsTo_command ha hrst h.idle hwf rfl (by simp [State.executes, hwf, h.phase])
    have ht := absorbed_of_registers_eq (absorbed_absorbEffect h h8 c.2) hregs
    obtain ⟨u, hrun', hu⟩ := ih hsplit' (hrun.rest (x := [assemble (.absorb c.1 c.2)]) hprog rfl) (hrun.rst.trans hrst) ht
    refine ⟨u, ?_, ?_⟩
    · rw [List.length_cons, Nat.add_comm]
      exact hrun.trans hrun'
    · rw [splitMessage, List.flatMap_cons, ← List.append_assoc]
      exact hu

/-! ### SQUEEZE on an idle engine -/

/-- The lane that SQUEEZE number `i` after FINAL returns, from the lanes after the last block. -/
def outputLane (a : Lanes) (i : Nat) : Lane := lane (keccakF^[i / 17] a) (i % 17)

/-- The idle engine has squeezed `i` lanes since FINAL left the lanes `a`, with no error. -/
structure Squeezed (a : Lanes) (i : Nat) (s : State) : Prop where
  idle : s.busy = false
  noError : s.err = false
  phase : s.phase = .squeeze
  sq : s.sq.toNat = i % 17
  noPending : s.pendCnt = 0
  lanes : s.lanes = keccakF^[i / 17] a

theorem squeezed_of_registers_eq {a : Lanes} {i : Nat} {s t : State} (h : Squeezed a i s)
    (hregs : t.registers = s.registers) : Squeezed a i t where
  idle := (eq_of_registers_eq hregs State.busy).trans h.idle
  noError := (eq_of_registers_eq hregs State.err).trans h.noError
  phase := (eq_of_registers_eq hregs State.phase).trans h.phase
  sq := (congrArg BitVec.toNat (eq_of_registers_eq hregs State.sq)).trans h.sq
  noPending := (eq_of_registers_eq hregs State.pendCnt).trans h.noPending
  lanes := (eq_of_registers_eq hregs State.lanes).trans h.lanes

/-- A permutation started in SQUEEZE phase with SQ at 0 leads to the start of the next output block. -/
theorem squeezed_of_started {a : Lanes} {i : Nat} {s : State} (hb : s.busy = true) (h0 : s.round = 0)
    (herr : s.err = false) (hphase : s.phase = .squeeze) (hsq : s.sq = 0) (hpend : s.pendCnt = 0) (hi : i % 17 = 0)
    (hlanes : keccakF s.lanes = keccakF^[i / 17] a) : Squeezed a i s.settled := by
  obtain ⟨hbusy, hpend', -, hlanes'⟩ := settled_of_started hb h0
  obtain ⟨-, hphase', hsq', herr', -⟩ := settled_frame s
  refine ⟨hbusy, herr'.trans herr, hphase'.trans hphase, by rw [hsq', hsq, hi]; rfl, hpend', ?_⟩
  rw [hlanes', pendingBytes_of_none hpend, xorBytes, hlanes]

/-- FINAL pads the message and absorbs its last block (R137). -/
theorem squeezed_finalEffect {m : List Byte} {s : State} (h : Absorbed m s) :
    Squeezed (absorbedState m) 0 (finalEffect s).settled := by
  refine squeezed_of_started rfl rfl h.noError rfl rfl h.noPending rfl ?_
  rw [absorbedState_eq, ← h.lanes, ← h.pos]
  rfl

/-- SQUEEZE returns the next lane, and after the 17th starts the permutation before the next block (R138). -/
theorem squeezed_squeezeEffect {a : Lanes} {i : Nat} {s : State} (h : Squeezed a i s) :
    (squeezeEffect s).result = outputLane a i ∧ Squeezed a (i + 1) (squeezeEffect s).settled := by
  have hsq := h.sq
  refine ⟨by simp [outputLane, h.sq, h.lanes], ?_⟩
  by_cases h16 : s.sq.toNat = 16
  · have hblock : (i + 1) / 17 = i / 17 + 1 := by omega
    rw [squeezeEffect_last s h16]
    refine squeezed_of_started rfl rfl h.noError h.phase rfl h.noPending (by omega) ?_
    rw [hblock, Function.iterate_succ_apply', ← h.lanes]
    rfl
  · have hblock : (i + 1) / 17 = i / 17 := by omega
    rw [squeezeEffect_within s h16, settled_of_idle (by simpa using h.idle)]
    refine ⟨h.idle, h.noError, h.phase, ?_, h.noPending, ?_⟩
    · rw [State.setSq_sq, BitVec.toNat_ofNat]
      omega
    · rw [hblock]
      exact h.lanes

/-- The run of `n` SQUEEZEs, each with its read of RESULT (R139). -/
theorem runsTo_squeezeReads (n : Nat) {s : State} {a : Lanes} {i : Nat} {after : List HostAction}
    (hprog : s.program.drop s.pc = squeezeReads n ++ after) (hrst : s.rst = false) (h : Squeezed a i s.settled) :
    ∃ t, RunsTo s (2 * n) ((List.range' i n).map (outputLane a)) t ∧ Squeezed a (i + n) t.settled := by
  induction n generalizing s i with
  | zero => exact ⟨s, ⟨⟨0, rfl⟩, rfl, rfl, rfl, by simp⟩, h⟩
  | succ n ih =>
    obtain ⟨ha, -⟩ := currentAction_of_drop hprog
    obtain ⟨t, hrun, hregs⟩ := runsTo_command ha hrst h.idle rfl rfl (by simp [State.executes, h.phase])
    obtain ⟨hresult, hnext⟩ := squeezed_squeezeEffect h
    have ht := squeezed_of_registers_eq hnext hregs
    have hprog' : t.program.drop t.pc = .rdResult :: (squeezeReads n ++ after) :=
      hrun.rest (x := [assemble .squeeze]) hprog rfl
    obtain ⟨u, hread, hregs'⟩ := runsTo_rdResult (currentAction_of_drop hprog').1 ht.idle
    rw [(result_eq_of_settled_registers hregs).trans hresult] at hread
    have hprog'' : u.program.drop u.pc = squeezeReads n ++ after := hread.rest (x := [.rdResult]) hprog' rfl
    obtain ⟨v, hrest, hv⟩ :=
      ih hprog'' (hread.rst.trans (hrun.rst.trans hrst)) (squeezed_of_registers_eq ht hregs')
    refine ⟨v, ?_, ?_⟩
    · rw [show 2 * (n + 1) = 1 + 1 + 2 * n by omega, List.range'_succ, List.map_cons]
      exact (hrun.trans hread).trans hrest
    · rwa [Nat.add_right_comm] at hv

/-! ### The bytes read (R54, R133) -/

theorem resultBytes_append (l l' : List (BitVec 64)) : resultBytes (l ++ l') = resultBytes l ++ resultBytes l' := by
  induction l with
  | nil => rfl
  | cons r l ih => rw [List.cons_append, resultBytes, ih, resultBytes, List.append_assoc]

theorem laneBytes_eq (v : Lane) : laneBytes v = (List.range 8).map (wordByte v) := rfl

/-- The bytes of a lane that SQUEEZE returns are the next eight output bytes. -/
theorem wordByte_outputLane (a : Lanes) (i : Nat) {t : Nat} (ht : t < 8) :
    wordByte (outputLane a i) t = outputByte a (8 * i + t) := by
  have hblock : (8 * i + t) / 136 = i / 17 := by omega
  have hbyte : (8 * i + t) % 136 = 8 * (i % 17) + t := by omega
  rw [outputByte, hblock, hbyte, sb_eq_wordByte_lane _ _ ht, outputLane]

theorem resultBytes_outputLanes (a : Lanes) (n : Nat) :
    resultBytes ((List.range n).map (outputLane a)) = squeezeOutput a (8 * n) := by
  rw [squeezeOutput_eq]
  induction n with
  | zero => rfl
  | succ n ih =>
    have hlane : laneBytes (outputLane a n) = (List.range 8).map (outputByte a ∘ (8 * n + ·)) :=
      (laneBytes_eq _).trans (List.map_congr_left fun t ht => wordByte_outputLane a n (List.mem_range.mp ht))
    rw [List.range_succ, List.map_append, resultBytes_append, ih, Nat.mul_succ, List.range_add, List.map_append,
      List.map_map, ← hlane]
    simp [resultBytes]

/-! ### The whole sequence (R139) -/

theorem squeezeReads_length (n : Nat) : (squeezeReads n).length = 2 * n := by
  induction n with
  | zero => rfl
  | succ n ih => rw [squeezeReads, List.length_cons, List.length_cons, ih, Nat.mul_succ]

theorem digestProgram_length (absorbs : List Instr) (n : Nat) :
    (digestProgram absorbs n).length = 1 + absorbs.length + 1 + 2 * n := by
  simp [digestProgram, squeezeReads_length]
  omega

/-- The run of INIT, ABSORBs that carry a message in any split, FINAL, and `n` SQUEEZEs with their reads, from any idle
engine. -/
theorem runsTo_digestProgram {s : State} {chunks : List Chunk} {n : Nat} {after : List HostAction}
    (hb : s.busy = false) (hrst : s.rst = false) (hsplit : legalSplit chunks)
    (hprog : s.program.drop s.pc = digestProgram (splitCommands chunks) n ++ after) :
    ∃ t, RunsTo s (digestProgram (splitCommands chunks) n).length
        ((List.range n).map (outputLane (absorbedState (splitMessage chunks)))) t ∧ t.err = false := by
  have hs := settled_of_idle hb
  have hprog0 : s.program.drop s.pc =
      assemble .init :: ((splitCommands chunks).map assemble ++ assemble .final :: (squeezeReads n ++ after)) := by
    rw [hprog]
    simp [digestProgram]
  obtain ⟨t, hinit, hregs⟩ := runsTo_command (currentAction_of_drop hprog0).1 hrst (by rwa [hs]) rfl rfl rfl
  rw [hs] at hregs
  have hrst1 := hinit.rst.trans hrst
  have hprog1 := hinit.rest (x := [assemble .init]) hprog0 rfl
  obtain ⟨u, habsorb, hu⟩ :=
    runsTo_absorbs hsplit hprog1 hrst1 (absorbed_of_registers_eq (absorbed_initialise hb) hregs)
  have hrst2 := habsorb.rst.trans hrst1
  have hprog2 := habsorb.rest hprog1 (by simp [splitCommands])
  obtain ⟨v, hfinal, hregs'⟩ := runsTo_command (currentAction_of_drop hprog2).1 hrst2 hu.idle rfl rfl
    (by simp [State.executes, hu.phase])
  have hrst3 := hfinal.rst.trans hrst2
  have hprog3 := hfinal.rest (x := [assemble .final]) hprog2 rfl
  obtain ⟨w, hsqueeze, hw⟩ :=
    runsTo_squeezeReads n hprog3 hrst3 (squeezed_of_registers_eq (squeezed_finalEffect hu) hregs')
  have hall := ((hinit.trans habsorb).trans hfinal).trans hsqueeze
  refine ⟨w, ?_, ?_⟩
  · rw [digestProgram_length]
    simpa [splitCommands, List.range_eq_range'] using hall
  · obtain ⟨-, -, -, herr, -⟩ := settled_frame w
    exact herr.symm.trans hw.noError

/-- Settles O57: the run of the sequence, and the bytes its reads return. -/
theorem commandSequenceComputesTheSponge : Obligations.CommandSequenceComputesTheSponge := by
  intro s chunks j after hb hrst hsplit hprog
  obtain ⟨t, hrun, herr⟩ := runsTo_digestProgram hb hrst hsplit hprog
  obtain ⟨k, hk⟩ := hrun.run
  have hbytes (n : Nat) := resultBytes_outputLanes (absorbedState (splitMessage chunks)) n
  refine ⟨k, t, _, hk, hrun.pc, hrun.program, herr, hrun.observed, by simp, ?_, fun hj => ?_⟩
  · rw [hbytes, ← Nat.mul_assoc]
  · rw [hbytes, hj]
    rfl

end Sys2Proof.Machine
end

section
/-! PROOFS. The lane commands LOAD_LANE and READ_LANE (R160, R161), and what LANE_ACCESS gates: opcodes 6 and 7 and
STATUS bit 3, and nothing that another command reads or writes (R162). -/

namespace Sys2Proof.Machine

open Sys2Proof.Config

/-! ### LANE_ACCESS and the commands without it (R162) -/

/-- The state in a build with the given LANE_ACCESS. -/
def State.setLaneAccess (b : Bool) (s : State) : State := { s with params := { s.params with laneAccess := b } }

/-- Only opcodes 6 and 7 decode by LANE_ACCESS. -/
theorem decode_eq_of_opcode_ne {c : Command} (h6 : opcField c.cmd ≠ 6) (h7 : opcField c.cmd ≠ 7) (la la' : Bool) :
    decode la c = decode la' c := by
  have hsel : selectOpcode la (opcField c.cmd) (argField c.cmd) c.data =
      selectOpcode la' (opcField c.cmd) (argField c.cmd) c.data := by
    unfold selectOpcode
    split
    case h_6 ho => exact absurd (BitVec.eq_of_toNat_eq ho) h6
    case h_7 ho => exact absurd (BitVec.eq_of_toNat_eq ho) h7
    all_goals rfl
  rw [decode, hsel, decode]

/-- Neither acceptance nor a raised cause reads LANE_ACCESS: a command commutes with changing it where its effect does. -/
theorem whenAccepted_setLaneAccess {s : State} {b : Bool} (checks : List (Bool × Cause)) (effect : State → State)
    (h : effect (s.setLaneAccess b) = (effect s).setLaneAccess b) :
    (s.setLaneAccess b).whenAccepted checks effect = mapNext (State.setLaneAccess b) (s.whenAccepted checks effect) := by
  cases hr : s.cmdReady with
  | false =>
    have hr' : (s.setLaneAccess b).cmdReady = false := hr
    rw [whenAccepted_held _ _ hr, whenAccepted_held _ _ hr']
    rfl
  | true =>
    have hr' : (s.setLaneAccess b).cmdReady = true := hr
    cases hc : firstCause checks with
    | none =>
      rw [whenAccepted_effect _ hr hc, whenAccepted_effect _ hr' hc, h]
      rfl
    | some k =>
      rw [whenAccepted_raise _ hr hc, whenAccepted_raise _ hr' hc]
      rfl

/-- No effect reads LANE_ACCESS: ABSORB branches on POS and SQUEEZE on SQ, and the others do not branch. -/
theorem effectOf_setLaneAccess (i : Instr) (s : State) (b : Bool) :
    effectOf i (s.setLaneAccess b) = (effectOf i s).setLaneAccess b := by
  cases i with
  | absorb n d =>
    simp only [effectOf, absorbEffect, apply_ite (State.setLaneAccess b)]
    rfl
  | squeeze =>
    simp only [effectOf, squeezeEffect, apply_ite (State.setLaneAccess b)]
    rfl
  | _ => rfl

/-- A command that is no lane command does the same in both builds. -/
theorem exec_setLaneAccess {i : Instr} (hi : i.needsLaneAccess = false) (s : State) (b : Bool) :
    exec i (s.setLaneAccess b) = mapNext (State.setLaneAccess b) (exec i s) := by
  cases i with
  | init => exact whenAccepted_setLaneAccess [] _ (effectOf_setLaneAccess .init s b)
  | absorb n d => exact whenAccepted_setLaneAccess _ _ (effectOf_setLaneAccess (.absorb n d) s b)
  | final => exact whenAccepted_setLaneAccess _ _ (effectOf_setLaneAccess .final s b)
  | squeeze => exact whenAccepted_setLaneAccess _ _ (effectOf_setLaneAccess .squeeze s b)
  | permute => exact whenAccepted_setLaneAccess [] _ (effectOf_setLaneAccess .permute s b)
  | loadLane k d => cases hi
  | readLane k => cases hi

theorem needsLaneAccess_of_opcode_ne {la : Bool} {c : Command} {i : Instr} (h : decode la c = .ok i)
    (h6 : opcField c.cmd ≠ 6) (h7 : opcField c.cmd ≠ 7) : i.needsLaneAccess = false := by
  obtain ⟨ho, -, -⟩ := legal_of_decode h
  cases i with
  | loadLane k d => exact absurd ho h6
  | readLane k => exact absurd ho h7
  | _ => rfl

theorem runCommand_setLaneAccess {c : Command} (h6 : opcField c.cmd ≠ 6) (h7 : opcField c.cmd ≠ 7) (s : State) (b : Bool) :
    runCommand c (s.setLaneAccess b) = mapNext (State.setLaneAccess b) (runCommand c s) := by
  have hdec : decode (s.setLaneAccess b).params.laneAccess c = decode s.params.laneAccess c :=
    decode_eq_of_opcode_ne h6 h7 _ _
  unfold runCommand
  rw [hdec]
  cases hd : decode s.params.laneAccess c with
  | ok i => exact exec_setLaneAccess (needsLaneAccess_of_opcode_ne hd h6 h7) s b
  | error e => exact whenAccepted_setLaneAccess _ id rfl

/-! ### The lane opcodes (R76, R162) -/

theorem decode_laneOpcode_of_absent {c : Command} (ho : opcField c.cmd = 6 ∨ opcField c.cmd = 7) :
    decode false c = .error .illegalOpcode := by
  have hsel : selectOpcode false (opcField c.cmd) (argField c.cmd) c.data = none := by
    rcases ho with ho | ho <;> rw [ho] <;> rfl
  rw [decode, hsel]

theorem decode_laneOpcode_of_rsv_ne {c : Command} (ho : opcField c.cmd = 6 ∨ opcField c.cmd = 7)
    (hrsv : rsvField c.cmd ≠ 0) : decode true c = .error .illegalField := by
  obtain ⟨i, hsel⟩ : ∃ i, selectOpcode true (opcField c.cmd) (argField c.cmd) c.data = some i := by
    rcases ho with ho | ho <;> rw [ho] <;> exact ⟨_, rfl⟩
  simp only [decode, hsel, hrsv, false_and, if_false]

/-- The opcode check stands before the field check: RSV is looked at only in a build that has the opcode. -/
theorem runCommand_laneOpcode_of_rsv_ne {s : State} {c : Command} (hr : s.cmdReady = true)
    (ho : opcField c.cmd = 6 ∨ opcField c.cmd = 7) (hrsv : rsvField c.cmd ≠ 0) :
    runCommand c s = .next (s.raise (if s.params.laneAccess = true then .illegalField else .illegalOpcode)) := by
  cases hla : s.params.laneAccess with
  | false => exact runCommand_of_error hr (hla ▸ decode_laneOpcode_of_absent ho)
  | true => exact runCommand_of_error hr (hla ▸ decode_laneOpcode_of_rsv_ne ho hrsv)

/-- Settles O31: STATUS bit 3, the two opcodes by the decoder, and the other commands by `runCommand_setLaneAccess`. -/
theorem laneAccessOnlyGatesTheLaneCommands : Obligations.LaneAccessOnlyGatesTheLaneCommands := by
  refine fun s => ⟨?_, fun c hr hla ho => ?_, fun c b h6 h7 => runCommand_setLaneAccess h6 h7 s b⟩
  · rw [statusWord_getLsbD]
    simp [flagBit]
  · exact runCommand_of_error hr (hla ▸ decode_laneOpcode_of_absent ho)

/-! ### LOAD_LANE and READ_LANE (R160, R161) -/

/-- The two checks of a lane command are the build's LANE_ACCESS and the lane index; it is legal in both phases. -/
theorem executes_eq_of_needsLaneAccess {i : Instr} (hn : i.needsLaneAccess = true) (s : State) :
    s.executes i = (s.params.laneAccess && i.wf) := by
  cases i with
  | loadLane k d => rfl
  | readLane k => rfl
  | _ => cases hn

theorem causeOf_of_needsLaneAccess {i : Instr} (hn : i.needsLaneAccess = true) (s : State) :
    causeOf i s = if s.params.laneAccess = true then .illegalField else .illegalOpcode := by
  cases i with
  | loadLane k d => rfl
  | readLane k => rfl
  | _ => cases hn

/-- In a build without it a lane command raises cause 1, whatever its lane index. -/
theorem exec_laneCommand_of_absent {s : State} {i : Instr} (hr : s.cmdReady = true) (hn : i.needsLaneAccess = true)
    (hla : s.params.laneAccess = false) : exec i s = .next (s.raise .illegalOpcode) := by
  have he : s.executes i = false := by rw [executes_eq_of_needsLaneAccess hn, hla, Bool.false_and]
  rw [exec_raises hr he, causeOf_of_needsLaneAccess hn, hla]
  rfl

/-- In a build that has it a lane command raises cause 2 for a lane index out of range. -/
theorem exec_laneCommand_of_not_wf {s : State} {i : Instr} (hr : s.cmdReady = true) (hn : i.needsLaneAccess = true)
    (hla : s.params.laneAccess = true) (hw : i.wf = false) : exec i s = .next (s.raise .illegalField) := by
  have he : s.executes i = false := by rw [executes_eq_of_needsLaneAccess hn, hw, Bool.and_false]
  rw [exec_raises hr he, causeOf_of_needsLaneAccess hn, if_pos hla]

/-- Settles O29: the lane written and the lanes left, then the errors shared with READ_LANE. -/
theorem loadLaneWritesOneLane : Obligations.LoadLaneWritesOneLane := by
  refine fun s i d hr => ⟨fun hla hi => ?_, exec_laneCommand_of_absent hr rfl, fun hla hi => ?_, fun w ho hrsv => ?_⟩
  · exact ⟨_, exec_executes hr (executes_of_needsLaneAccess rfl (decide_eq_true hi) hla), rfl,
      lane_setLane_same s.lanes d (by omega), fun j hj => lane_setLane_ne s.lanes d hj.symm⟩
  · exact exec_laneCommand_of_not_wf hr rfl hla (decide_eq_false (by omega))
  · exact runCommand_laneOpcode_of_rsv_ne hr (.inl ho) hrsv

/-- Settles O30: RESULT is the lane named, then the errors shared with LOAD_LANE. -/
theorem readLaneCopiesOneLane : Obligations.ReadLaneCopiesOneLane := by
  refine fun s i hr => ⟨fun hla hi => ?_, exec_laneCommand_of_absent hr rfl, fun hla hi => ?_, fun w d ho hrsv => ?_⟩
  · exact exec_executes hr (executes_of_needsLaneAccess rfl (decide_eq_true hi) hla)
  · exact exec_laneCommand_of_not_wf hr rfl hla (decide_eq_false (by omega))
  · exact runCommand_laneOpcode_of_rsv_ne hr (.inr ho) hrsv

end Sys2Proof.Machine
end

section
/-! PROOFS. Command errors (R181 to R185), that nothing stops the machine (R180, R184), the idle engine (R193), the build
parameters (R188), and several engines (R191). -/

namespace Sys2Proof.Machine

open Sys2Proof.Config Sys2Proof.Laws.EncodedFields

/-! ### Nothing stops the machine (R180, R184) -/

/-- A command on the port of an engine that is not ready is held (R204). -/
theorem runCommand_held {s : State} (c : Command) (hr : s.cmdReady = false) : runCommand c s = .next s := by
  unfold runCommand
  split
  · exact exec_held _ hr
  · exact whenAccepted_held _ id hr

theorem exec_answers (i : Instr) (s : State) : ∃ t, exec i s = .next t := by
  rcases exec_cases i s with ⟨-, h⟩ | ⟨-, -, h⟩ | ⟨-, -, h⟩
  · exact ⟨s, h⟩
  · exact ⟨s.raise (causeOf i s), h⟩
  · exact ⟨effectOf i s, h⟩

theorem runCommand_answers (c : Command) (s : State) : ∃ t, runCommand c s = .next t := by
  cases hr : s.cmdReady with
  | false => exact ⟨s, runCommand_held c hr⟩
  | true =>
    rcases runCommand_cases c hr with ⟨k, h⟩ | ⟨i, -, -, h⟩
    · exact ⟨s.raise k, h⟩
    · exact ⟨effectOf i s, h⟩

/-- Settles O43: every case of a step, of an instruction and of a command is a next state. -/
theorem everyStepAnswersANextState : Obligations.EveryStepAnswersANextState :=
  ⟨fun s => (step_cases s).imp fun _ h => h.1, exec_answers, runCommand_answers⟩

/-! ### The error record of other commands (R182, R185) -/

/-- The state with another error record. -/
def State.setError (e : Bool) (k : BitVec 3) (s : State) : State := { s with err := e, cause := k }

/-- A raise writes the error record alone (R182). -/
theorem raise_eq_setError (s : State) (k : Cause) :
    s.raise k = s.setError true (if s.err = true then s.cause else k.code) := rfl

/-- No effect but INIT's reads or writes the error record: ABSORB branches on POS and SQUEEZE on SQ, and the others do not
branch. -/
theorem effectOf_setError {i : Instr} (hi : i ≠ .init) (s : State) (e : Bool) (k : BitVec 3) :
    effectOf i (s.setError e k) = (effectOf i s).setError e k := by
  cases i with
  | init => exact absurd rfl hi
  | absorb n d =>
    simp only [effectOf, absorbEffect, apply_ite (State.setError e k)]
    rfl
  | squeeze =>
    simp only [effectOf, squeezeEffect, apply_ite (State.setError e k)]
    rfl
  | _ => rfl

/-- No check reads the error record (R182). -/
theorem executes_setError (i : Instr) (s : State) (e : Bool) (k : BitVec 3) :
    (s.setError e k).executes i = s.executes i := by
  cases i <;> rfl

/-- Settles O33: a raise is `State.raise`, and neither the checks nor the effect of a command other than INIT read the
error record. -/
theorem raisingChangesOnlyTheErrorRecord : Obligations.RaisingChangesOnlyTheErrorRecord := by
  intro s c hr
  obtain ⟨hraise, hexec⟩ := acceptedCommandIsCheckedThenExecuted c s hr
  refine ⟨fun k hk => ⟨s.raise k, hraise k hk, hr, ?_⟩, fun hnone e k hinit => ?_⟩
  · rw [raise_eq_setError]
    cases k <;> rfl
  · obtain ⟨i, t, hd, he, ht, hrun, -⟩ := hexec hnone
    have hi : i ≠ .init := fun h => hinit (h ▸ hd)
    have hother : runCommand c (s.setError e k) = .next (effectOf i (s.setError e k)) :=
      (runCommand_of_ok (s := s.setError e k) hd).trans (exec_executes hr ((executes_setError i s e k).trans he))
    rw [effectOf_setError hi] at hother
    rw [hrun, ← ht, exec_executes hr he]
    exact hother

/-! ### The order of the causes (R181, R183) -/

/-- The first check of R76 is code 1 of R181. -/
theorem illegalOpcode_iff (la : Bool) (w : CmdWord) :
    illegalOpcode la w ↔
      (opcField w).toNat ∉ [1, 2, 3, 4, 5, 6, 7] ∨ ((opcField w).toNat ∈ [6, 7] ∧ la = false) := by
  have hopcode : ∀ (la : Bool) (o : BitVec 4), (o = 0 ∨ 8 ≤ o.toNat ∨ ((o = 6 ∨ o = 7) ∧ la = false)) ↔
      (o.toNat ∉ [1, 2, 3, 4, 5, 6, 7] ∨ (o.toNat ∈ [6, 7] ∧ la = false)) := by decide
  exact hopcode la (opcField w)

/-- The second check of R76 is code 2 of R181. -/
theorem illegalField_iff (w : CmdWord) :
    illegalField w ↔
      (rsvField w).toNat ≠ 0 ∨ ((opcField w).toNat = 2 ∧ ¬(1 ≤ (argField w).toNat ∧ (argField w).toNat ≤ 8)) ∨
        ((opcField w).toNat ∈ [6, 7] ∧ ¬((argField w).toNat ≤ 24)) ∨
        ((opcField w).toNat ∈ [1, 3, 4, 5] ∧ (argField w).toNat ≠ 0) := by
  simp only [illegalField, opcField, rsvField, argField, ne_eq, BitVec.toNat_eq, List.mem_cons, List.not_mem_nil, or_false,
    not_and_or, not_le]
  rfl

/-- The third check of R76 is code 3 of R181. -/
theorem wrongPhase_iff (p : Phase) (w : CmdWord) :
    wrongPhase p w ↔
      ((opcField w).toNat ∈ [2, 3] ∧ p ≠ .absorb) ∨ ((opcField w).toNat = 4 ∧ p ≠ .squeeze) := by
  cases p <;> simp [wrongPhase, opcField, BitVec.toNat_eq]

/-- The cause of R76's checks is the first of R181's that applies, in the order 1, 2, 3 (R183). -/
theorem commandCause_eq (la : Bool) (p : Phase) (w : CmdWord) :
    commandCause la p w =
      if illegalOpcode la w then some .illegalOpcode
      else if illegalField w then some .illegalField
      else if wrongPhase p w then some .wrongPhase
      else none := by
  simp only [illegalOpcode_iff, illegalField_iff, wrongPhase_iff]
  rfl

/-- The one word of INIT. -/
theorem decode_eq_init_iff (la : Bool) (w : CmdWord) (d : DataWord) : decode la ⟨w, d⟩ = .ok .init ↔ w = 0x10000000 := by
  simp [decode_eq_ok_iff_word]

/-- The error record after an accepted command to which no cause applies: INIT clears it, and no other command writes it
(R185). -/
theorem error_record_of_no_cause {s t : State} {w : CmdWord} {d : DataWord} (hr : s.cmdReady = true)
    (hnone : commandCause s.params.laneAccess s.phase w = none) (ht : runCommand ⟨w, d⟩ s = .next t) :
    if w = 0x10000000 then t.err = false ∧ t.cause = 0 else t.err = s.err ∧ t.cause = s.cause := by
  obtain ⟨-, hexec⟩ := acceptedCommandIsCheckedThenExecuted ⟨w, d⟩ s hr
  obtain ⟨i, u, hd, he, hu, hrun, -⟩ := hexec hnone
  cases hrun.symm.trans ht
  cases (exec_executes hr he).symm.trans hu
  split
  · next hw =>
    cases hd.symm.trans ((decode_eq_init_iff _ w d).mpr hw)
    exact ⟨rfl, rfl⟩
  · next hw => exact effectOf_error_of_ne_init s fun hi => hw ((decode_eq_init_iff _ w d).mp (hi ▸ hd))

/-- Settles O35: the cause raised is `commandCause`, whose order is R183's, and a command that has no cause leaves the
record or, as INIT, clears it. -/
theorem causesHaveTheirPriority : Obligations.CausesHaveTheirPriority := by
  intro s w d hr
  obtain ⟨t, ht⟩ := runCommand_answers ⟨w, d⟩ s
  have hcause := commandCause_eq s.params.laneAccess s.phase w
  have raised {k : Cause} (hk : commandCause s.params.laneAccess s.phase w = some k) :
      t.err = true ∧ t.cause = if s.err = true then s.cause else k.code := by
    cases ((acceptedCommandIsCheckedThenExecuted ⟨w, d⟩ s hr).1 k hk).symm.trans ht
    exact ⟨rfl, rfl⟩
  refine ⟨t, ht, fun h1 => ?_, fun h1 h2 => ?_, fun h1 h2 h3 => ?_, fun h1 h2 h3 => ?_, fun hw hp herr => ?_⟩
  · exact raised (hcause.trans (if_pos h1))
  · exact raised (by rw [hcause, if_neg h1, if_pos h2])
  · exact raised (by rw [hcause, if_neg h1, if_neg h2, if_pos h3])
  · exact error_record_of_no_cause hr (by rw [hcause, if_neg h1, if_neg h2, if_neg h3]) ht
  · have hboth : ∀ la, commandCause la .absorb 0x40000001 = some .illegalField := by decide
    have hfield := (raised (hw ▸ hp ▸ hboth _)).2
    rwa [herr] at hfield

/-! ### An idle engine (R193) -/

theorem accepts_of_command {s : State} {c : Command} (ha : s.currentAction = some (.command c)) (hr : s.cmdReady = true) :
    s.accepts = true := by
  simp [State.accepts, State.cmdValid, ha, hr]

/-- Only the host can move beside an idle engine, so no turn is used up. -/
theorem takeTurn_of_idle {s : State} (hb : s.busy = false) : s.takeTurn = s :=
  takeTurn_of_not_contended (by simp [State.contended, State.engineEnabled, hb])

/-- Where neither agent may move the state stays. -/
theorem step_of_idle {s : State} (hb : s.busy = false) (ha : s.currentAction = none) : step s = .next s := by
  have hn : s.nextAgent = none := by
    simp [State.nextAgent, State.contended, State.hostEnabled, State.engineEnabled, ha, hb]
  simp [step, agentStep, hn]

/-- Settles O42: of the cases of a step, an idle engine leaves the host's reads, its wait and its release of `rst`. -/
theorem idleEngineChangesNothing : Obligations.IdleEngineChangesNothing := by
  refine fun s hb => ⟨step_of_idle hb, fun t h hacc hreset => ?_⟩
  have rejected {c : Command} (ha : s.currentAction = some (.command c)) (hr : s.cmdReady = true) : False := by
    simp [accepts_of_command ha hr] at hacc
  cases step_case h with
  | idle => rfl
  | engine hn => simp [(busy_of_stepIsEngine hn).1] at hb
  | raised c k ha hr => exact (rejected ha hr).elim
  | executed c i ha hr => exact (rejected ha hr).elim
  | read o => rw [takeTurn_of_idle hb]; rfl
  | waited => rw [takeTurn_of_idle hb]; rfl
  | reset level hs => exact absurd hs hreset
  | released => rw [takeTurn_of_idle hb]; rfl

/-! ### The build parameters (R7, R188) -/

/-- Settles O44: `step_params`, by what a step can do. -/
theorem noStepChangesTheBuildParameters : Obligations.NoStepChangesTheBuildParameters :=
  fun _ _ => step_params

/-! ### Several engines (R191) -/

theorem platformStep_of_absent {k : Nat} {p : List State} (hk : p[k]? = none) : platformStep k p = .next p := by
  simp [platformStep, hk]

theorem platformStep_of_step {k : Nat} {p : List State} {s t : State} (hk : p[k]? = some s) (h : step s = .next t) :
    platformStep k p = .next (p.set k t) := by
  simp [platformStep, hk, h]

/-- Settles O52: the step of one engine writes its own place in the list. -/
theorem instancesShareNothing : Obligations.InstancesShareNothing := by
  intro p k
  cases hk : p[k]? with
  | none => exact ⟨p, platformStep_of_absent hk, rfl, fun _ _ => rfl, nofun⟩
  | some s =>
    obtain ⟨t, ht, -⟩ := step_cases s
    obtain ⟨hlt, -⟩ := List.getElem?_eq_some_iff.mp hk
    refine ⟨p.set k t, platformStep_of_step hk ht, List.length_set, fun j hj => List.getElem?_set_ne hj.symm, ?_⟩
    rintro s' ⟨⟩
    exact ⟨t, ht, List.getElem?_set_self hlt⟩

end Sys2Proof.Machine
end

section
/-! PROOFS. The hold of the port while a permutation runs (R204), the end of every permutation (R209), and reset at every
point (R200). -/

namespace Sys2Proof.Machine

open Sys2Proof.Config

/-! ### A host that is held (R31, R204) -/

theorem hostEnabled_of_command {s : State} {c : Command} (ha : s.currentAction = some (.command c)) :
    s.hostEnabled = s.cmdReady := by
  simp [State.hostEnabled, ha]

theorem hostEnabled_of_waitIdle {s : State} (ha : s.currentAction = some .waitIdle) : s.hostEnabled = !s.busy := by
  simp [State.hostEnabled, ha]

theorem cmdReady_of_busy {s : State} (hb : s.busy = true) : s.cmdReady = false := by
  simp [State.cmdReady, hb]

theorem currentAction_of_offered {s : State} {c : Command} (h : s.offered = some c) :
    s.currentAction = some (.command c) := by
  unfold State.offered at h
  split at h
  · rename_i ha
    cases h
    exact ha
  · cases h

/-- The engine leaves the host's list and `pc`, so it leaves what the host offers. -/
theorem engineSteps_offered (k : Nat) (s : State) : (engineSteps k s).offered = s.offered := by
  simp [State.offered, State.currentAction, engineSteps_frame]

/-- Beside a running permutation a held host's `pc` stays, and with `rst = 0` the step is the engine's. -/
theorem step_of_held {s t : State} (hh : s.hostEnabled = false) (hb : s.busy = true) (h : step s = .next t) :
    t.pc = s.pc ∧ (s.rst = false → t = engineStep s) := by
  have hn : s.nextAgent ≠ some .host := fun hn => Bool.false_ne_true (hh.symm.trans (hostEnabled_of_nextAgent hn))
  obtain ⟨-, -, hpc⟩ := step_program_pc h
  exact ⟨hpc hn, fun hr => next_unique h (step_engine hh ((engineEnabled_iff s).mpr ⟨hb, hr⟩))⟩

/-- WAIT_IDLE is let go where BUSY = 0 (R31). -/
theorem step_waitIdle {s : State} (hb : s.busy = false) (ha : s.currentAction = some .waitIdle) :
    step s = .next { s with pc := s.pc + 1 } := by
  have hh : s.hostEnabled = true := by simp [hostEnabled_of_waitIdle ha, hb]
  have he : s.engineEnabled = false := by simp [State.engineEnabled, hb]
  rw [step_host (nextAgent_host_of_idle_engine hh he).1, takeTurn_of_idle hb, hostStep, ha]
  rfl

/-- An offered command waits through the remaining rounds, and then the port is ready for it (R204). -/
theorem runSteps_of_offered {s : State} {c : Command} (ho : s.offered = some c) (hb : s.busy = true)
    (hr : s.rst = false) (hround : s.round.toNat < 24) :
    ∃ t, runSteps (24 - s.round.toNat) s = .next t ∧ t.cmdReady = true ∧ t.offered = some c ∧ t.pc = s.pc := by
  have hheld (u : State) (hu : u.busy = true) (hua : u.currentAction = s.currentAction) : u.hostEnabled = false :=
    (hostEnabled_of_command (hua.trans (currentAction_of_offered ho))).trans (cmdReady_of_busy hu)
  obtain ⟨-, -, -, -, -, -, -, hrst, -, hpc, -⟩ := engineSteps_frame (24 - s.round.toNat) s
  exact ⟨_, runSteps_engine _ s hb hr (by omega) hheld,
    (cmdReady_iff _).mpr ⟨(engineSteps_end s hround).1, hrst.trans hr⟩, (engineSteps_offered _ s).trans ho, hpc⟩

/-- Settles O38: with BUSY = 1 a command and WAIT_IDLE are not enabled, so the steps are the engine's, which keep what is
offered and end the permutation. -/
theorem busyHoldsTheOfferedCommand : Obligations.BusyHoldsTheOfferedCommand := by
  refine ⟨fun s => step_waitIdle, fun s hb => ?_⟩
  have hready := cmdReady_of_busy hb
  refine ⟨fun ha => ?_, hready, by simp [State.accepts, hready], fun i => exec_held i hready,
    fun c => runCommand_held c hready, fun c ho hr => ?_, fun c ho hr => runSteps_of_offered ho hb hr, fun ha => ?_⟩
  · have hh : s.hostEnabled = false := by simp [hostEnabled_of_waitIdle ha, hb]
    exact ⟨hh, fun t => step_of_held hh hb⟩
  · have hh := (hostEnabled_of_command (currentAction_of_offered ho)).trans hready
    obtain ⟨-, -, -, -, -, -, -, -, -, hpc, -⟩ := engineStep_frame s
    exact ⟨step_engine hh ((engineEnabled_iff s).mpr ⟨hb, hr⟩), (engineSteps_offered 1 s).trans ho, hpc⟩
  · rcases ha with ha | ha <;> simp [State.hostEnabled, ha]

/-! ### The end of every permutation (R209) -/

/-- The rounds the running permutation has left, and the actions the host has left. -/
def State.stepsLeft (s : State) : Nat := 24 - s.round.toNat + (s.program.length - s.pc)

/-- Where the engine may move, one of the two agents does. -/
theorem nextAgent_ne_none_of_engineEnabled {s : State} (he : s.engineEnabled = true) : s.nextAgent ≠ none := by
  cases hh : s.hostEnabled <;> simp [State.nextAgent, State.contended, hh, he]

/-- A step beside a running permutation ends it, or uses up one of the rounds or one of the host's actions. -/
theorem step_of_busy {s t : State} (hround : s.round.toNat < 24) (hb : s.busy = true) (hr : s.rst = false)
    (h : step s = .next t) :
    t.busy = false ∨ (t.busy = true ∧ t.rst = false ∧ t.stepsLeft < s.stepsLeft) := by
  have hnotReady : s.cmdReady ≠ true := by simp [cmdReady_of_busy hb]
  have hostActs (hn : s.nextAgent = some .host) : s.program.length - (s.pc + 1) < s.program.length - s.pc := by
    have := pc_lt_of_currentAction (currentAction_of_nextAgent hn)
    omega
  cases step_case h with
  | idle hn => exact absurd hn (nextAgent_ne_none_of_engineEnabled ((engineEnabled_iff s).mpr ⟨hb, hr⟩))
  | engine hn =>
    by_cases h23 : s.round.toNat = 23
    · exact .inl (engineStep_ends (by simpa using h23)).1
    · right
      rw [engineStep_round (by simpa using h23)]
      refine ⟨by simpa using hb, by simpa using hr, ?_⟩
      simp [State.stepsLeft]
      omega
  | raised c k ha hready => exact absurd hready hnotReady
  | executed c i ha hready => exact absurd hready hnotReady
  | read o hn => exact .inr ⟨by simpa using hb, by simpa using hr, by simpa [State.stepsLeft] using hostActs hn⟩
  | waited hn hidle => exact .inl (by simpa using hidle)
  | reset => exact .inl rfl
  | released hn => exact .inr ⟨by simpa using hb, rfl, by simpa [State.stepsLeft] using hostActs hn⟩

/-- BUSY is 0 within `n` steps, where at most `n` rounds and actions are left. -/
theorem exists_idle_of_stepsLeft_le (n : Nat) {s : State} (hs : s.SpongeInv) (hb : s.busy = true) (hr : s.rst = false)
    (hn : s.stepsLeft ≤ n) : ∃ k t, k ≤ n ∧ runSteps k s = .next t ∧ t.busy = false := by
  have hround := hs.round_lt
  induction n generalizing s with
  | zero =>
    unfold State.stepsLeft at hn
    omega
  | succ n ih =>
    obtain ⟨u, hu, -⟩ := step_cases s
    rcases step_of_busy hround hb hr hu with hidle | ⟨hbu, hru, hlt⟩
    · exact ⟨1, u, Nat.le_add_left 1 n, runSteps_succ 0 s u hu, hidle⟩
    · have hsu := step_keeps_spongeInv hs hu
      obtain ⟨k, t, hk, hrun, hidle⟩ := ih hsu hbu hru (by omega) hsu.round_lt
      exact ⟨k + 1, t, Nat.succ_le_succ hk, (runSteps_succ k s u hu).trans hrun, hidle⟩

/-- Settles O39: by induction on the rounds and the actions that are left. -/
theorem everyPermutationEnds : Obligations.EveryPermutationEnds := by
  intro s hs hb hr
  obtain ⟨hsponge, -⟩ := (inv_iff s).mp hs
  exact exists_idle_of_stepsLeft_le _ hsponge hb hr (Nat.add_le_add_right (Nat.sub_le 24 _) _)

/-! ### Reset (R200) -/

/-- STATUS at the reset values shows LANE_ACCESS alone (R34, R36). -/
theorem statusWord_of_registersReset {s : State} (h : s.RegistersReset) :
    s.statusWord = if s.params.laneAccess = true then 0x00000008 else 0x00000000 := by
  obtain ⟨-, hphase, hpos, hsq, hbusy, hround, hpend, herr, hcause, -⟩ := h
  obtain ⟨-, -, -, hstatus⟩ := resetValuesOfEveryRegister.1 s.params
  have hregs : s.statusWord = (State.resetWith s.params).statusWord := by
    simp [State.statusWord, State.resetWith, hphase, hpos, hsq, hbusy, hround, hpend, herr, hcause]
  exact hregs.trans hstatus

/-- While `rst = 1` the port is not ready and the engine does not move. -/
theorem held_of_rst {s : State} (hr : s.rst = true) : s.cmdReady = false ∧ s.engineEnabled = false := by
  simp [State.cmdReady, State.engineEnabled, hr]

/-- The step that lets `rst` fall from 1 to 0. -/
theorem step_driveRst_false {s : State} (hr : s.rst = true) (ha : s.currentAction = some (.driveRst false)) :
    step s = .next (s.setRst false).advancePc := by
  obtain ⟨hn, hturn⟩ := nextAgent_host_of_idle_engine (by simp [State.hostEnabled, ha]) (held_of_rst hr).2
  rw [step_host hn, hturn, hostStep, ha]

/-- Settles O41: the step that asserts reset is `step_of_resets`, the invariant holds the reset values while `rst = 1`,
and the fall of `rst` leaves them. -/
theorem resetHoldsTheEngineAtItsResetValues : Obligations.ResetHoldsTheEngineAtItsResetValues := by
  refine fun s => ⟨fun ha => ?_, fun hs => ?_, held_of_rst, fun hr hs => ?_⟩
  · rcases ha with ha | ha <;> simp [State.hostEnabled, ha]
  · obtain ⟨level, hstep, hlevel⟩ := step_of_resets hs
    exact ⟨_, hstep, registersReset_applyReset s.takeTurn, by simp, by simp, by simp, by simp, hlevel⟩
  · obtain ⟨-, -, hheld, -⟩ := (inv_iff s).mp hs
    have hregs := hheld hr
    have ⟨_, _, _, _, hbusy, _, _, _, _, hresult⟩ := hregs
    exact ⟨statusWord_of_registersReset hregs, hresult, fun ha =>
      ⟨_, step_driveRst_false hr ha, hregs, (cmdReady_iff _).mpr ⟨hbusy, rfl⟩⟩⟩

end Sys2Proof.Machine
end
